-- ==== Sys2Proof/Word.lean ====
section
/-! DEFINITION. The word types of CALC-RE: the 64-bit pattern (spec/00_scope.md R7) and the 8-bit
command word and character code (30_encoding.md R37). -/

namespace Sys2Proof

/-- A 64-bit pattern: `raw`, `A`, `B` and `RESULT` (R7, R37). Bit 0 is the least significant (R8). -/
abbrev Word := BitVec 64

/-- An 8-bit pattern: the command word `CMD` (R39) and one character code of `TEXT` (R84). -/
abbrev Byte := BitVec 8

end Sys2Proof
end

