-- ==== Sys2Proof/Syntax.lean ====
section
/-! DEFINITION. The commands of CALC-RE: the two mode types (spec/10_state.md R18, R19), the command as the
host presents it (30_encoding.md R37, R38) and one constructor per row of spec/opcode_table.json (R40). -/

namespace Sys2Proof

/-- The four word sizes (R18). Their widths are `WordSize.bits`, their codes `WordSize.code`. -/
inductive WordSize where
  | byte
  | word
  | dword
  | qword
deriving DecidableEq, Repr

/-- The four display radixes (R19). Their codes are `Base.code`. -/
inductive Base where
  | dec
  | bin
  | oct
  | hex
deriving DecidableEq, Repr

/-- One command as the host presents it: the command word and the two operand buses, together (R38). -/
structure Command where
  cmd : Byte
  a : Word
  b : Word
deriving DecidableEq, Repr

/-- What the host can do to the block between two commands: present a command (R38) or assert `RST` (R98). -/
inductive HostInput where
  | command (c : Command)
  | rst
deriving DecidableEq, Repr

/-- The 22 operations of R40, each with the operands R44 says it reads; a bus that a command does not
read is no part of the instruction (92_eei_decisions.md D26). Every mode argument is legal (R41). -/
inductive Instr where
  | add (a b : Word)
  | subtract (a b : Word)
  | multiply (a b : Word)
  | divide (a b : Word)
  | mod (a b : Word)
  | bitAnd (a b : Word)
  | bitOr (a b : Word)
  | bitXor (a b : Word)
  | bitNot (a : Word)
  | shl (a b : Word)
  | shr (a b : Word)
  | rol (a b : Word)
  | ror (a b : Word)
  | isqrt (a : Word)
  | reciprocal (a : Word)
  | setBase (newBase : Base)
  | setWordSize (newSize : WordSize)
  | setValue (a : Word)
  | setRaw (a : Word)
  | getValue
  | getRaw
  | display
deriving DecidableEq, Repr

end Sys2Proof
end

