-- ==== Sys2Proof/Config.lean ====
section
/-! DEFINITION. The parameters of CALC-RE (spec/00_scope.md R7) that are not already types. -/

namespace Sys2Proof.Config

/-- `RAW_WIDTH`, the width of the stored pattern (R7). -/
def rawWidth : Nat := 64

/-- The text output capacity in characters (R7, 45_rendering.md R83, R84). -/
def textCapacity : Nat := 64

/-- `CMD_LATENCY` (R7, 70_reset_and_hazards.md R104, 92_eei_decisions.md D25): the time from a command to
its response, left OPEN by the spec. It may differ per command and per word size; a natural number, so it is
finite. It has no value here and no rule reads it (notes/assumptions/6.md, safe). -/
opaque cmdLatency : Byte → WordSize → Nat

end Sys2Proof.Config
end

