-- ==== Sys2Proof/Machine/State.lean ====
section
/-! DEFINITION. The state of CALC-RE (spec/10_state.md, 30_encoding.md R37 and R38) as plain data, the reasons a
step can stop, and the state right after reset (R25, 70_reset_and_hazards.md R98). -/

namespace Sys2Proof.Machine

/-- The error kinds a response can report (60_exceptions.md R87). -/
inductive ErrorKind where
  | divisionByZero
  | invalidOperand
  | notRepresentable
  | illegalCommand
deriving DecidableEq, Repr

/-- The outcome of the last command, the port `STATUS` (R37, R87). Codes 5 to 7 are never produced, so the type
has no value for them (93_implementation_defined.md U4; notes/assumptions/12.md, DEDUCED, safe). -/
inductive Status where
  | ok
  | error (kind : ErrorKind)
deriving DecidableEq, Repr

/-- Why the machine stops with a fault: never. The block has no trap and no hang; each of its errors is a
response, after which it goes on (60_exceptions.md R93, R94, 70_reset_and_hazards.md R104). The type is empty, so
nobody raises one (notes/assumptions/9.md, DEDUCED, safe). -/
inductive Fault
deriving DecidableEq, Repr

/-- Why a step gives no meaning. -/
inductive Refusal where
  /-- Raised by an arm of `exec` for an instruction that has no meaning yet; no arm raises it. Safe: the model
  stops where the hardware goes on. -/
  | notModelled (mnemonic : String)
  /-- Raised by `step` for a command issued with no `RST` before it: the spec asks a model to refuse it (R100).
  Safe: nothing is claimed of such a run. -/
  | commandBeforeReset
deriving DecidableEq, Repr

/-- The state of the block, its held response outputs, and what the host has still to present. -/
structure State where
  /-- The stored bit pattern (R15); bits 63 to w are 0 (R16). -/
  raw : Word
  /-- The word size (R18). -/
  ws : WordSize
  /-- The display radix (R19). -/
  base : Base
  /-- The port `STATUS`, held until the next command or reset (R37, R38). -/
  status : Status
  /-- The port `RESULT`, held likewise (R37, R38, R46). -/
  result : Word
  /-- The port `TEXT_LEN`, held likewise (R37, R84). -/
  textLen : BitVec 7
  /-- The port `TEXT[0..63]`, held likewise (R37, R84). -/
  text : Vector Byte 64
  /-- The model's own field: `RST` has been asserted since power-on (R100; notes/assumptions/2.md). -/
  resetSeen : Bool
  /-- The model's own field: what the host has still to present on the input ports, oldest first
  (R23, R38; notes/assumptions/1.md). -/
  inputs : List HostInput
deriving DecidableEq, Repr

/-- The machine right after reset (R25, R98). The two fields of the model's own are as notes/assumptions/1.md and
notes/assumptions/2.md say: nothing is pending, and a reset has been seen. -/
def State.reset : State where
  raw := 0
  ws := .qword
  base := .dec
  status := .ok
  result := 0
  textLen := 0
  text := Vector.replicate 64 0
  resetSeen := true
  inputs := []

end Sys2Proof.Machine
end

