-- ==== Sys2Proof/Machine/Operands.lean ====
section
/-! DEFINITION. The readings of patterns and the integer helpers that the rules use: spec/00_scope.md R9, R10, R11,
the word size in bits (10_state.md R18) and the operands of the shifts and rotates (42_shift_rotate.md R63, R64). -/

namespace Sys2Proof

/-- The active word size in bits, `w = 8 * 2^ws` (R18). -/
def WordSize.bits (ws : WordSize) : Nat :=
  match ws with
  | .byte => 8
  | .word => 16
  | .dword => 32
  | .qword => 64

namespace Machine

/-- `u64(p)` (R9). -/
def u64 (p : Word) : Nat := p.toNat

/-- `s64(p)` (R9); the operands are `a = s64(A)` and `b = s64(B)` (R13). -/
def s64 (p : Word) : Int := p.toInt

/-- `zext_64(pat_w(r))` (R9, R10): the integer `r` modulo 2^w, as a `w`-bit pattern widened with zeros. -/
def pat (ws : WordSize) (r : Int) : Word := (BitVec.ofInt ws.bits r).setWidth 64

/-- `mask(w)`: exactly the low `w` bits set (R10). -/
def mask (ws : WordSize) : Word := BitVec.ofNat 64 (2 ^ ws.bits - 1)

/-- `sext_64(q)` of a `w`-bit pattern `q` held in the low `w` bits (R10). -/
def sext64 (ws : WordSize) (q : Word) : Word :=
  if q.getLsbD (ws.bits - 1) then q ||| ~~~ mask ws else q

/-- `tdiv(x, y)`: the quotient truncated toward zero (R11), for `y` not 0. -/
def tdiv (x y : Int) : Int := x.sign * y.sign * ((x.natAbs / y.natAbs : Nat) : Int)

/-- `trem(x, y)`: the remainder of the truncated division (R11), for `y` not 0. -/
def trem (x y : Int) : Int := x - y * tdiv x y

/-- The root's bits below bit `k`, from the top one down: a bit stays when the square still fits in `n`. -/
def isqrtBits : Nat → Nat → Nat → Nat
  | 0, _, r => r
  | k + 1, n, r => isqrtBits k n (if (r + 2 ^ k) * (r + 2 ^ k) ≤ n then r + 2 ^ k else r)

/-- `isqrt_floor(n)` (R11): the `r` with `r^2 <= n < (r+1)^2`, bit by bit. The spec names no method
(91_not_in_source.md N23); the value is exact for every `n` (notes/assumptions/13.md, DESIGN CHOICE, safe). -/
def isqrtFloor (n : Nat) : Nat := isqrtBits (n.log2 / 2 + 1) n 0

/-- The value that is shifted or rotated, `v = A & mask(w)` (R63). -/
def shiftValue (ws : WordSize) (a : Word) : Word := a &&& mask ws

/-- The effective amount, `k = u64(B) mod w` (R64). -/
def shiftAmount (ws : WordSize) (b : Word) : Nat := u64 b % ws.bits

end Machine
end Sys2Proof
end

