-- ==== Sys2Proof/Machine/Ops.lean ====
section
/-! DEFINITION. The operations that every command shares: `store`, the two readings of the register, `respond` and
`raise` (spec/00_scope.md R12), the execution template (30_encoding.md R45), reset (70_reset_and_hazards.md R98) and
the presentation of the next host input (30_encoding.md R38). The block has no memory (20_memory.md R26) and no trap
entry or return (60_exceptions.md R93, R94): an error is one response, `respond` with an error kind. -/

namespace Sys2Proof.Machine

/-- `raw <- v`. -/
def setRawField (s : State) (v : Word) : State := { s with raw := v }

/-- `ws <- c`. -/
def setWsField (s : State) (c : WordSize) : State := { s with ws := c }

/-- `base <- c`. -/
def setBaseField (s : State) (c : Base) : State := { s with base := c }

/-- `store(r)`: `raw <- zext_64(pat_w(r))` (R12, R51). -/
def store (s : State) (r : Int) : State := setRawField s (pat s.ws r)

/-- `raw & mask(w)`. -/
def maskedRaw (s : State) : Word := s.raw &&& mask s.ws

/-- `SVAL = sext_64(raw & mask(w))`, the RESULT of every successful command but `getRaw` (R20, R46). -/
def signedResult (s : State) : Word := sext64 s.ws (maskedRaw s)

/-- `zext_64(raw & mask(w))`, the RESULT of `getRaw` (R46, R77). -/
def unsignedResult (s : State) : Word := maskedRaw s

/-- `sval()`: the signed value of the register (R20). -/
def sval (s : State) : Int := s64 (signedResult s)

/-- `uval()`: the unsigned value of the register (R21). -/
def uval (s : State) : Nat := u64 (maskedRaw s)

/-- The character code of a rendered character: ASCII (45_rendering.md R84). -/
def charCode (c : Char) : Byte := BitVec.ofNat 8 c.toNat

/-- The port `TEXT[0..63]` for a text: the codes of its characters, `0x00` from its end on (R84). -/
def textPort (t : List Char) : Vector Byte 64 :=
  Vector.ofFn fun i => (t[i.val]?.map charCode).getD 0

/-- `respond(status, result, text)`: set the response outputs (R12, R46, R84). -/
def respond (s : State) (st : Status) (result : Word) (t : List Char) : State :=
  { s with status := st, result := result, textLen := BitVec.ofNat 7 t.length, text := textPort t }

/-- How a command's rule ends: with the state it leaves, or with `raise K` (R12). -/
inductive RuleResult where
  | done (s : State)
  | raised (kind : ErrorKind)
deriving DecidableEq, Repr

/-- The text of every command but `display`: none (R46). -/
def noText (_ : State) : List Char := []

/-- The execution template of R45 for a legal command. A raise answers with the state before the command, so no
partial write is ever visible (60_exceptions.md R90), and with RESULT 0 and no text (R46, R89). -/
def execute (rule : State → RuleResult) (result : State → Word) (text : State → List Char) (s : State) : State :=
  match rule s with
  | .done t => respond t .ok (result t) (text t)
  | .raised k => respond s (.error k) 0 []

/-- The answer to an illegal command word (R45, 60_exceptions.md R91). -/
def answerIllegal (s : State) : State := respond s (.error .illegalCommand) 0 []

/-- The host asserts `RST` (R98): every field of the block and every response output at its reset value. What the
host has still to present is the host's and stays. -/
def assertReset (s : State) : State := { State.reset with inputs := s.inputs }

/-- The next host input, and the state once the host has presented it (R38); none while the host presents
nothing. -/
def fetch (s : State) : Option (HostInput × State) :=
  match s.inputs with
  | [] => none
  | x :: rest => some (x, { s with inputs := rest })

/-- The host presents `x` next, before everything it had still to present. -/
def present (s : State) (x : HostInput) : State := { s with inputs := x :: s.inputs }

end Sys2Proof.Machine
end

