-- ==== Sys2Proof/Machine/Arithmetic.lean ====
section
/-! DEFINITION. The binary arithmetic commands (spec/40_arithmetic.md R51 to R57). Each forms the exact integer result of
its signed 64-bit operands, not reduced to the word size first (30_encoding.md R44), and stores it modulo 2^w. -/

namespace Sys2Proof.Machine

/-- `add`: `store(a + b)` (R52). -/
def execAdd (a b : Word) (s : State) : Host.Outcome State Fault Refusal :=
  .next (execute (fun s => .done (store s (s64 a + s64 b))) signedResult noText s)

/-- `subtract`: `store(a - b)` (R53). -/
def execSubtract (a b : Word) (s : State) : Host.Outcome State Fault Refusal :=
  .next (execute (fun s => .done (store s (s64 a - s64 b))) signedResult noText s)

/-- `multiply`: `store(a * b)` (R54). -/
def execMultiply (a b : Word) (s : State) : Host.Outcome State Fault Refusal :=
  .next (execute (fun s => .done (store s (s64 a * s64 b))) signedResult noText s)

/-- The rule of `divide`: DivisionByZero for a zero divisor, else `store(tdiv(a, b))` (R55). -/
def divideRule (a b : Int) (s : State) : RuleResult :=
  if b = 0 then .raised .divisionByZero else .done (store s (tdiv a b))

/-- `divide` (R55). -/
def execDivide (a b : Word) (s : State) : Host.Outcome State Fault Refusal :=
  .next (execute (divideRule (s64 a) (s64 b)) signedResult noText s)

/-- The rule of `mod`: DivisionByZero for a zero divisor, else `store(trem(a, b))` (R56). -/
def modRule (a b : Int) (s : State) : RuleResult :=
  if b = 0 then .raised .divisionByZero else .done (store s (trem a b))

/-- `mod` (R56). -/
def execMod (a b : Word) (s : State) : Host.Outcome State Fault Refusal :=
  .next (execute (modRule (s64 a) (s64 b)) signedResult noText s)

end Sys2Proof.Machine
end

