-- ==== Sys2Proof/Machine/Bitwise.lean ====
section
/-! DEFINITION. The bitwise commands (spec/41_bitwise.md R58 to R62), on the 64-bit patterns, masked to the word size. -/

namespace Sys2Proof.Machine

/-- `bitAnd`: `raw <- (A & B) & mask(w)` (R59). -/
def execBitAnd (a b : Word) (s : State) : Host.Outcome State Fault Refusal :=
  .next (execute (fun s => .done (setRawField s ((a &&& b) &&& mask s.ws))) signedResult noText s)

/-- `bitOr`: `raw <- (A | B) & mask(w)` (R60). -/
def execBitOr (a b : Word) (s : State) : Host.Outcome State Fault Refusal :=
  .next (execute (fun s => .done (setRawField s ((a ||| b) &&& mask s.ws))) signedResult noText s)

/-- `bitXor`: `raw <- (A ^ B) & mask(w)` (R61). -/
def execBitXor (a b : Word) (s : State) : Host.Outcome State Fault Refusal :=
  .next (execute (fun s => .done (setRawField s ((a ^^^ b) &&& mask s.ws))) signedResult noText s)

/-- `bitNot`: `raw <- (~A) & mask(w)` (R62). -/
def execBitNot (a : Word) (s : State) : Host.Outcome State Fault Refusal :=
  .next (execute (fun s => .done (setRawField s ((~~~ a) &&& mask s.ws))) signedResult noText s)

end Sys2Proof.Machine
end

