-- ==== Sys2Proof/Machine/Configuration.lean ====
section
/-! DEFINITION. The configuration, load and read commands (spec/44_configuration.md R72 to R77). -/

namespace Sys2Proof.Machine

/-- `setBase`: `base <- ARG` (R72). -/
def execSetBase (newBase : Base) (s : State) : Host.Outcome State Fault Refusal :=
  .next (execute (fun s => .done (setBaseField s newBase)) signedResult noText s)

/-- The rule of `setWordSize`: the new word size, then `raw` masked to it (R73). -/
def setWordSizeRule (newSize : WordSize) (s : State) : RuleResult :=
  .done (setRawField (setWsField s newSize) (s.raw &&& mask newSize))

/-- `setWordSize` (R73). -/
def execSetWordSize (newSize : WordSize) (s : State) : Host.Outcome State Fault Refusal :=
  .next (execute (setWordSizeRule newSize) signedResult noText s)

/-- `setValue`: `store(a)` (R74). -/
def execSetValue (a : Word) (s : State) : Host.Outcome State Fault Refusal :=
  .next (execute (fun s => .done (store s (s64 a))) signedResult noText s)

/-- `setRaw`: `store(u64(A))` (R75). -/
def execSetRaw (a : Word) (s : State) : Host.Outcome State Fault Refusal :=
  .next (execute (fun s => .done (store s (u64 a))) signedResult noText s)

/-- `getValue`: no state change, RESULT the signed value (R76). -/
def execGetValue (s : State) : Host.Outcome State Fault Refusal :=
  .next (execute (fun s => .done s) signedResult noText s)

/-- `getRaw`: no state change, RESULT the unsigned masked pattern (R77). -/
def execGetRaw (s : State) : Host.Outcome State Fault Refusal :=
  .next (execute (fun s => .done s) unsignedResult noText s)

end Sys2Proof.Machine
end

