-- ==== Sys2Proof/Machine/ElementaryMath.lean ====
section
/-! DEFINITION. The elementary math commands (spec/43_elementary_math.md R70, R71), on the full 64-bit operand. -/

namespace Sys2Proof.Machine

/-- The rule of `isqrt`: InvalidOperand for a negative operand, else the exact floor root (R70). -/
def isqrtRule (a : Int) (s : State) : RuleResult :=
  if a < 0 then .raised .invalidOperand else .done (store s (isqrtFloor a.toNat))

/-- `isqrt` (R70). -/
def execIsqrt (a : Word) (s : State) : Host.Outcome State Fault Refusal :=
  .next (execute (isqrtRule (s64 a)) signedResult noText s)

/-- The rule of `reciprocal`: the zero test first, then exactness (R71, 60_exceptions.md R92). -/
def reciprocalRule (a : Int) (s : State) : RuleResult :=
  if a = 0 then .raised .divisionByZero
  else if trem 1 a ≠ 0 then .raised .notRepresentable
  else .done (store s (tdiv 1 a))

/-- `reciprocal` (R71). -/
def execReciprocal (a : Word) (s : State) : Host.Outcome State Fault Refusal :=
  .next (execute (reciprocalRule (s64 a)) signedResult noText s)

end Sys2Proof.Machine
end

