-- ==== Sys2Proof/Machine/Rendering.lean ====
section
/-! DEFINITION. The rendering engine and `display` (spec/45_rendering.md R79 to R85). -/

namespace Sys2Proof.Machine

/-- `DIGIT[d]`, for `d` from 0 to 15 (R79). -/
def digitChar (d : Nat) : Char :=
  (['0', '1', '2', '3', '4', '5', '6', '7', '8', '9', 'A', 'B', 'C', 'D', 'E', 'F'][d]?).getD '0'

/-- The loop of `digits(n, R)` (R80), at most `fuel` times around: the digits of `n`, then `acc`. -/
def digitsLoop : Nat → Nat → Nat → List Char → List Char
  | 0, _, _, acc => acc
  | fuel + 1, n, radix, acc =>
    if n = 0 then acc else digitsLoop fuel (n / radix) radix (digitChar (n % radix) :: acc)

/-- `digits(n, R)` (R80). In a radix of 2 or more, `n` has no more digits than it has bits, so the loop ends. -/
def digits (n radix : Nat) : List Char :=
  if n = 0 then ['0'] else digitsLoop (n.log2 + 1) n radix []

/-- `dec_text(x)` (R80, R81). -/
def decText (x : Int) : List Char :=
  if x < 0 then '-' :: digits (-x).toNat 10 else digits x.toNat 10

/-- `Render()`: the text for the current state (R80). -/
def render (s : State) : List Char :=
  match s.base with
  | .dec => decText (sval s)
  | .bin => digits (uval s) 2
  | .oct => digits (uval s) 8
  | .hex => digits (uval s) 16

/-- `display`: no state change, the text presented (R85). -/
def execDisplay (s : State) : Host.Outcome State Fault Refusal :=
  .next (execute (fun s => .done s) signedResult render s)

end Sys2Proof.Machine
end

