-- ==== Sys2Proof/Machine/ShiftRotate.lean ====
section
/-! DEFINITION. The shift and rotate commands (spec/42_shift_rotate.md R63 to R68): a value already reduced to the word
size, by an amount reduced modulo the word size. -/

namespace Sys2Proof.Machine

/-- `(v << k) & mask(w)` (R65). -/
def shlPattern (ws : WordSize) (v : Word) (k : Nat) : Word := (v <<< k) &&& mask ws

/-- `v >> k`, with zeros from the left (R66). -/
def shrPattern (v : Word) (k : Nat) : Word := v >>> k

/-- The rotation to the left, with the branch for `k = 0` (R67). -/
def rolPattern (ws : WordSize) (v : Word) (k : Nat) : Word :=
  if k = 0 then v else ((v <<< k) ||| (v >>> (ws.bits - k))) &&& mask ws

/-- The rotation to the right, with the branch for `k = 0` (R68). -/
def rorPattern (ws : WordSize) (v : Word) (k : Nat) : Word :=
  if k = 0 then v else ((v >>> k) ||| (v <<< (ws.bits - k))) &&& mask ws

/-- `shl` (R65). -/
def execShl (a b : Word) (s : State) : Host.Outcome State Fault Refusal :=
  .next (execute (fun s => .done (setRawField s (shlPattern s.ws (shiftValue s.ws a) (shiftAmount s.ws b))))
    signedResult noText s)

/-- `shr` (R66). -/
def execShr (a b : Word) (s : State) : Host.Outcome State Fault Refusal :=
  .next (execute (fun s => .done (setRawField s (shrPattern (shiftValue s.ws a) (shiftAmount s.ws b))))
    signedResult noText s)

/-- `rol` (R67). -/
def execRol (a b : Word) (s : State) : Host.Outcome State Fault Refusal :=
  .next (execute (fun s => .done (setRawField s (rolPattern s.ws (shiftValue s.ws a) (shiftAmount s.ws b))))
    signedResult noText s)

/-- `ror` (R68). -/
def execRor (a b : Word) (s : State) : Host.Outcome State Fault Refusal :=
  .next (execute (fun s => .done (setRawField s (rorPattern s.ws (shiftValue s.ws a) (shiftAmount s.ws b))))
    signedResult noText s)

end Sys2Proof.Machine
end

