-- ==== Sys2Proof/Machine/Dispatch.lean ====
section
/-! DEFINITION. One arm per instruction, each one call of its meaning (spec/30_encoding.md R40). -/

namespace Sys2Proof.Machine

def exec (i : Instr) (s : State) : Host.Outcome State Fault Refusal :=
  match i with
  | .add a b => Sys2Proof.Machine.execAdd a b s
  | .subtract a b => Sys2Proof.Machine.execSubtract a b s
  | .multiply a b => Sys2Proof.Machine.execMultiply a b s
  | .divide a b => Sys2Proof.Machine.execDivide a b s
  | .mod a b => Sys2Proof.Machine.execMod a b s
  | .bitAnd a b => Sys2Proof.Machine.execBitAnd a b s
  | .bitOr a b => Sys2Proof.Machine.execBitOr a b s
  | .bitXor a b => Sys2Proof.Machine.execBitXor a b s
  | .bitNot a => Sys2Proof.Machine.execBitNot a s
  | .shl a b => Sys2Proof.Machine.execShl a b s
  | .shr a b => Sys2Proof.Machine.execShr a b s
  | .rol a b => Sys2Proof.Machine.execRol a b s
  | .ror a b => Sys2Proof.Machine.execRor a b s
  | .isqrt a => Sys2Proof.Machine.execIsqrt a s
  | .reciprocal a => Sys2Proof.Machine.execReciprocal a s
  | .setBase r => Sys2Proof.Machine.execSetBase r s
  | .setWordSize w => Sys2Proof.Machine.execSetWordSize w s
  | .setValue a => Sys2Proof.Machine.execSetValue a s
  | .setRaw a => Sys2Proof.Machine.execSetRaw a s
  | .getValue => Sys2Proof.Machine.execGetValue s
  | .getRaw => Sys2Proof.Machine.execGetRaw s
  | .display => Sys2Proof.Machine.execDisplay s

end Sys2Proof.Machine
end

