-- ==== Sys2Proof/WellFormed.lean ====
section
/-! DEFINITION. Which command words are legal: the three conditions of spec/30_encoding.md R42, each by name.
An `Instr` needs no check of its own: R41 says that every mode argument names a legal mode, and the operands
are any 64-bit patterns (R44), so every value of the type is well formed. The check is on the command word. -/

namespace Sys2Proof

/-- `CMD[4:0]`, the operation code (R39). -/
def Command.opc (c : Command) : BitVec 5 := c.cmd.extractLsb' 0 5

/-- `CMD[6:5]`, the mode argument (R39). -/
def Command.arg (c : Command) : BitVec 2 := c.cmd.extractLsb' 5 2

/-- `CMD[7]`, reserved, must be 0 (R39). -/
def Command.rsv (c : Command) : Bool := c.cmd.getLsbD 7

/-- First condition of R42: `CMD[7] = 0`. -/
def Command.reservedBitClear (c : Command) : Bool := !c.rsv

/-- Second condition of R42: `0x01 <= CMD[4:0] <= 0x16`. -/
def Command.opcodeAssigned (c : Command) : Bool :=
  decide (0x01 ≤ c.opc.toNat) && decide (c.opc.toNat ≤ 0x16)

/-- Third condition of R42: `CMD[4:0]` is 0x10 or 0x11, or `CMD[6:5] = 0b00`. -/
def Command.argumentAllowed (c : Command) : Bool :=
  decide (c.opc.toNat = 0x10) || decide (c.opc.toNat = 0x11) || decide (c.arg = 0#2)

/-- `legal(CMD)` of R42. -/
def Command.legal (c : Command) : Bool :=
  c.reservedBitClear && c.opcodeAssigned && c.argumentAllowed

end Sys2Proof
end

