-- ==== Sys2Proof/Decode.lean ====
section
/-! DEFINITION. Decoding a command word with its operand buses, and encoding back (spec/30_encoding.md R39
to R44). Decoding is total: a reserved encoding (R43) is rejected by name. -/

namespace Sys2Proof

/-- The word size a 2-bit code names (R18). -/
def WordSize.ofCode (c : BitVec 2) : WordSize :=
  match c.toNat with
  | 0 => .byte
  | 1 => .word
  | 2 => .dword
  | _ => .qword

/-- The 2-bit code of a word size (R18), the value of `WS_O` (R47). -/
def WordSize.code (w : WordSize) : BitVec 2 :=
  match w with
  | .byte => 0
  | .word => 1
  | .dword => 2
  | .qword => 3

/-- The radix a 2-bit code names (R19). -/
def Base.ofCode (c : BitVec 2) : Base :=
  match c.toNat with
  | 0 => .dec
  | 1 => .bin
  | 2 => .oct
  | _ => .hex

/-- The 2-bit code of a radix (R19), the value of `BASE_O` (R47). -/
def Base.code (b : Base) : BitVec 2 :=
  match b with
  | .dec => 0
  | .bin => 1
  | .oct => 2
  | .hex => 3

/-- The four kinds of reserved encoding (R43). -/
inductive Reserved where
  /-- `RSV = 1` -/
  | reservedBitSet
  /-- `OPC = 0x00` -/
  | opcodeZero
  /-- `OPC` 0x17 to 0x1F -/
  | opcodeUnassigned
  /-- `ARG` not 0 with an `OPC` other than 0x10 and 0x11 -/
  | argumentNotZero
deriving DecidableEq, Repr

/-- What decoding a command answers. -/
inductive Decoded where
  | instr (i : Instr)
  | reserved (why : Reserved)
deriving DecidableEq, Repr

/-- An instruction without a mode argument: `ARG` must be `00` (R39, R43). -/
def plain (c : Command) (i : Instr) : Decoded :=
  if c.arg = 0 then .instr i else .reserved .argumentNotZero

/-- The opcode map of R40, over `OPC`. -/
def decodeOpcode (c : Command) : Decoded :=
  match c.opc.toNat with
  | 0x00 => .reserved .opcodeZero
  | 0x01 => plain c (.add c.a c.b)
  | 0x02 => plain c (.subtract c.a c.b)
  | 0x03 => plain c (.multiply c.a c.b)
  | 0x04 => plain c (.divide c.a c.b)
  | 0x05 => plain c (.mod c.a c.b)
  | 0x06 => plain c (.bitAnd c.a c.b)
  | 0x07 => plain c (.bitOr c.a c.b)
  | 0x08 => plain c (.bitXor c.a c.b)
  | 0x09 => plain c (.bitNot c.a)
  | 0x0A => plain c (.shl c.a c.b)
  | 0x0B => plain c (.shr c.a c.b)
  | 0x0C => plain c (.rol c.a c.b)
  | 0x0D => plain c (.ror c.a c.b)
  | 0x0E => plain c (.isqrt c.a)
  | 0x0F => plain c (.reciprocal c.a)
  | 0x10 => .instr (.setBase (Base.ofCode c.arg))
  | 0x11 => .instr (.setWordSize (WordSize.ofCode c.arg))
  | 0x12 => plain c (.setValue c.a)
  | 0x13 => plain c (.setRaw c.a)
  | 0x14 => plain c .getValue
  | 0x15 => plain c .getRaw
  | 0x16 => plain c .display
  | _ => .reserved .opcodeUnassigned

/-- Decode one command (R39 to R44). No state is an argument: no state changes how a word decodes (R48). -/
def decode (c : Command) : Decoded :=
  if c.rsv then .reserved .reservedBitSet else decodeOpcode c

/-- `CMD = {RSV, ARG[1:0], OPC[4:0]}` with `RSV = 0` (R39). -/
def cmdWord (arg : BitVec 2) (opc : BitVec 5) : Byte := (0#1 ++ arg ++ opc).cast (by decide)

/-- The command of an instruction (R40, R44). A bus that no operand fills is 0 (R49). -/
def encode (i : Instr) : Command :=
  match i with
  | .add a b => ⟨cmdWord 0 0x01, a, b⟩
  | .subtract a b => ⟨cmdWord 0 0x02, a, b⟩
  | .multiply a b => ⟨cmdWord 0 0x03, a, b⟩
  | .divide a b => ⟨cmdWord 0 0x04, a, b⟩
  | .mod a b => ⟨cmdWord 0 0x05, a, b⟩
  | .bitAnd a b => ⟨cmdWord 0 0x06, a, b⟩
  | .bitOr a b => ⟨cmdWord 0 0x07, a, b⟩
  | .bitXor a b => ⟨cmdWord 0 0x08, a, b⟩
  | .bitNot a => ⟨cmdWord 0 0x09, a, 0⟩
  | .shl a b => ⟨cmdWord 0 0x0A, a, b⟩
  | .shr a b => ⟨cmdWord 0 0x0B, a, b⟩
  | .rol a b => ⟨cmdWord 0 0x0C, a, b⟩
  | .ror a b => ⟨cmdWord 0 0x0D, a, b⟩
  | .isqrt a => ⟨cmdWord 0 0x0E, a, 0⟩
  | .reciprocal a => ⟨cmdWord 0 0x0F, a, 0⟩
  | .setBase r => ⟨cmdWord r.code 0x10, 0, 0⟩
  | .setWordSize w => ⟨cmdWord w.code 0x11, 0, 0⟩
  | .setValue a => ⟨cmdWord 0 0x12, a, 0⟩
  | .setRaw a => ⟨cmdWord 0 0x13, a, 0⟩
  | .getValue => ⟨cmdWord 0 0x14, 0, 0⟩
  | .getRaw => ⟨cmdWord 0 0x15, 0, 0⟩
  | .display => ⟨cmdWord 0 0x16, 0, 0⟩

/-- The command whose bits are the low `nbits` bits of `w`: `CMD` in bits 7 to 0, `A` in bits 71 to 8, `B` in
bits 135 to 72, every bit above `nbits` 0. The order of the buses is the model's (notes/assumptions/5.md,
DESIGN CHOICE, safe): the spec presents the three in parallel (R37, R38). -/
def Command.ofTableWord (nbits w : Nat) : Command :=
  let bits := w % 2 ^ nbits
  ⟨BitVec.ofNat 8 bits, BitVec.ofNat 64 (bits / 2 ^ 8), BitVec.ofNat 64 (bits / 2 ^ 72)⟩

/-- The instruction that the decoder reads from an opcode-table word; none where it is reserved. -/
def decodeTableWord (nbits w : Nat) : Option Instr :=
  match decode (Command.ofTableWord nbits w) with
  | .instr i => some i
  | .reserved _ => none

end Sys2Proof
end

