-- ==== Sys2Proof/Machine/Flags.lean ====
section
/-! DEFINITION. The block has no flags (spec/10_state.md R22). What stands in their place is the outcome code of a
response (60_exceptions.md R87); with it come the other output ports that are read off the state (30_encoding.md
R37, R47). -/

namespace Sys2Proof.Machine

/-- The number of an error kind (R87). -/
def errorCode (k : ErrorKind) : BitVec 3 :=
  match k with
  | .divisionByZero => 1
  | .invalidOperand => 2
  | .notRepresentable => 3
  | .illegalCommand => 4

/-- The 3-bit code of an outcome (R87). -/
def statusCode (st : Status) : BitVec 3 :=
  match st with
  | .ok => 0
  | .error k => errorCode k

/-- The port `STATUS` (R37). -/
def statusO (s : State) : BitVec 3 := statusCode s.status

/-- The port `WS_O = ws`, at all times (R47). -/
def wsO (s : State) : BitVec 2 := s.ws.code

/-- The port `BASE_O = base`, at all times (R47). -/
def baseO (s : State) : BitVec 2 := s.base.code

end Sys2Proof.Machine
end

