-- ==== Sys2Proof/Machine/Step.lean ====
section
/-! DEFINITION. One step of the machine: the next host input takes effect (spec/30_encoding.md R38, R45). -/

namespace Sys2Proof.Machine

/-- One step. With nothing presented the block waits (20_memory.md R32). `RST` resets it (R98). A command is
decoded and executed, or answered with IllegalCommand (R45, R91); with no `RST` before it, it is refused (R100). -/
def step (s : State) : Host.Outcome State Fault Refusal :=
  match fetch s with
  | none => .next s
  | some (.rst, t) => .next (assertReset t)
  | some (.command c, t) =>
    if t.resetSeen then
      match decode c with
      | .instr i => exec i t
      | .reserved _ => .next (answerIllegal t)
    else .refused .commandBeforeReset

/-- The host presents the command of an opcode-table word next, with operand buses of zeros where the table gives
them no bits. The step takes a command only after a reset, so this marks one as seen (notes/assumptions/2.md). -/
def State.withFetchWord (s : State) (nbits w : Nat) : State :=
  present { s with resetSeen := true } (.command (Command.ofTableWord nbits w))

end Sys2Proof.Machine
end

