-- ==== Sys2Proof/Machine/Assembler.lean ====
section
/-! DEFINITION. The assembler syntax of spec/30_encoding.md R49: one line of text to one command, or an assembly
error, which produces no command. It is no part of the block; the programs of 95_test_vectors.md are written in it.
What R49 leaves open (white space, a letter's case in a hexadecimal literal, an empty line, how the digits of a
`.cmd` word are counted, the rest of a listing with an erroneous line, one spelling per instruction) is in
notes/assumptions/11.md, DESIGN CHOICE, safe. -/

namespace Sys2Proof.Machine

/-- White space between the parts of a line. -/
def isBlank (c : Char) : Bool := c == ' ' || c == '\t'

/-- A text without the white space at its two ends. -/
def trim (t : List Char) : List Char :=
  ((t.dropWhile isBlank).reverse.dropWhile isBlank).reverse

/-- What stands before the first `;`: the rest is a comment (R49). -/
def withoutComment (line : List Char) : List Char := line.takeWhile (· != ';')

/-- The parts of a text between its commas; an empty text has none. -/
def splitCommas : List Char → List (List Char)
  | [] => []
  | c :: rest =>
    if c = ',' then
      [] :: (match splitCommas rest with | [] => [[]] | parts => parts)
    else
      match splitCommas rest with
      | [] => [[c]]
      | part :: parts => (c :: part) :: parts

/-- The value of a digit, decimal or hexadecimal (either case). -/
def digitValue (c : Char) : Option Nat :=
  if '0' ≤ c ∧ c ≤ '9' then some (c.toNat - 0x30)
  else if 'A' ≤ c ∧ c ≤ 'F' then some (c.toNat - 0x41 + 10)
  else if 'a' ≤ c ∧ c ≤ 'f' then some (c.toNat - 0x61 + 10)
  else none

/-- The number that digits stand for, read from the left on top of `acc`; none if one is no digit of the radix. -/
def readDigits (radix : Nat) : List Char → Nat → Option Nat
  | [], acc => some acc
  | c :: rest, acc =>
    match digitValue c with
    | none => none
    | some d => if d < radix then readDigits radix rest (acc * radix + d) else none

/-- The number that one digit or more stand for. -/
def readNumber (radix : Nat) (t : List Char) : Option Nat :=
  if t.isEmpty then none else readDigits radix t 0

/-- A numeric operand (R49): `0x` and 1 to 16 hexadecimal digits, or a decimal integer in
[-2^63, 2^64 - 1]. It assembles to `pat_64(value)`. -/
def readOperand (t : List Char) : Option Word :=
  match t with
  | '0' :: 'x' :: ds => if ds.length ≤ 16 then (readNumber 16 ds).map (BitVec.ofNat 64) else none
  | '-' :: ds =>
    match readNumber 10 ds with
    | some n => if n ≤ 2 ^ 63 then some (BitVec.ofInt 64 (-(n : Int))) else none
    | none => none
  | ds =>
    match readNumber 10 ds with
    | some n => if n < 2 ^ 64 then some (BitVec.ofNat 64 n) else none
    | none => none

/-- A command of two operands. -/
def assembleTwo (f : Word → Word → Instr) (ops : List (List Char)) : Option Command :=
  match ops with
  | [x, y] =>
    match readOperand x, readOperand y with
    | some a, some b => some (encode (f a b))
    | _, _ => none
  | _ => none

/-- A command of one operand. -/
def assembleOne (f : Word → Instr) (ops : List (List Char)) : Option Command :=
  match ops with
  | [x] => (readOperand x).map fun a => encode (f a)
  | _ => none

/-- A command of no operand. -/
def assembleNone (i : Instr) (ops : List (List Char)) : Option Command :=
  match ops with
  | [] => some (encode i)
  | _ => none

/-- The operand of `setBase` (R49). -/
def readBase (t : List Char) : Option Base :=
  if t = ['D', 'E', 'C'] then some .dec
  else if t = ['B', 'I', 'N'] then some .bin
  else if t = ['O', 'C', 'T'] then some .oct
  else if t = ['H', 'E', 'X'] then some .hex
  else none

/-- The operand of `setWordSize`: a width or its alias (R49). -/
def readWordSize (t : List Char) : Option WordSize :=
  if t = ['8'] ∨ t = ['B', 'Y', 'T', 'E'] then some .byte
  else if t = ['1', '6'] ∨ t = ['W', 'O', 'R', 'D'] then some .word
  else if t = ['3', '2'] ∨ t = ['D', 'W', 'O', 'R', 'D'] then some .dword
  else if t = ['6', '4'] ∨ t = ['Q', 'W', 'O', 'R', 'D'] then some .qword
  else none

/-- `setBase` with its operand. -/
def assembleSetBase (ops : List (List Char)) : Option Command :=
  match ops with
  | [x] => (readBase x).map fun r => encode (.setBase r)
  | _ => none

/-- `setWordSize` with its operand. -/
def assembleSetWordSize (ops : List (List Char)) : Option Command :=
  match ops with
  | [x] => (readWordSize x).map fun w => encode (.setWordSize w)
  | _ => none

/-- The directive `.cmd 0xHH`: the word `HH` unchanged, with both buses 0 (R49). -/
def assembleRaw (ops : List (List Char)) : Option Command :=
  match ops with
  | ['0' :: 'x' :: ds] =>
    if ds.length = 2 then (readNumber 16 ds).map fun n => ⟨BitVec.ofNat 8 n, 0, 0⟩ else none
  | _ => none

/-- The command of a mnemonic, spelled as in R40, with its operands; none for an assembly error (R49). -/
def assembleParts (mnemonic : List Char) (ops : List (List Char)) : Option Command :=
  if mnemonic = ['a', 'd', 'd'] then assembleTwo .add ops
  else if mnemonic = ['s', 'u', 'b', 't', 'r', 'a', 'c', 't'] then assembleTwo .subtract ops
  else if mnemonic = ['m', 'u', 'l', 't', 'i', 'p', 'l', 'y'] then assembleTwo .multiply ops
  else if mnemonic = ['d', 'i', 'v', 'i', 'd', 'e'] then assembleTwo .divide ops
  else if mnemonic = ['m', 'o', 'd'] then assembleTwo .mod ops
  else if mnemonic = ['b', 'i', 't', 'A', 'n', 'd'] then assembleTwo .bitAnd ops
  else if mnemonic = ['b', 'i', 't', 'O', 'r'] then assembleTwo .bitOr ops
  else if mnemonic = ['b', 'i', 't', 'X', 'o', 'r'] then assembleTwo .bitXor ops
  else if mnemonic = ['b', 'i', 't', 'N', 'o', 't'] then assembleOne .bitNot ops
  else if mnemonic = ['s', 'h', 'l'] then assembleTwo .shl ops
  else if mnemonic = ['s', 'h', 'r'] then assembleTwo .shr ops
  else if mnemonic = ['r', 'o', 'l'] then assembleTwo .rol ops
  else if mnemonic = ['r', 'o', 'r'] then assembleTwo .ror ops
  else if mnemonic = ['i', 's', 'q', 'r', 't'] then assembleOne .isqrt ops
  else if mnemonic = ['r', 'e', 'c', 'i', 'p', 'r', 'o', 'c', 'a', 'l'] then assembleOne .reciprocal ops
  else if mnemonic = ['s', 'e', 't', 'B', 'a', 's', 'e'] then assembleSetBase ops
  else if mnemonic = ['s', 'e', 't', 'W', 'o', 'r', 'd', 'S', 'i', 'z', 'e'] then assembleSetWordSize ops
  else if mnemonic = ['s', 'e', 't', 'V', 'a', 'l', 'u', 'e'] then assembleOne .setValue ops
  else if mnemonic = ['s', 'e', 't', 'R', 'a', 'w'] then assembleOne .setRaw ops
  else if mnemonic = ['g', 'e', 't', 'V', 'a', 'l', 'u', 'e'] then assembleNone .getValue ops
  else if mnemonic = ['g', 'e', 't', 'R', 'a', 'w'] then assembleNone .getRaw ops
  else if mnemonic = ['d', 'i', 's', 'p', 'l', 'a', 'y'] then assembleNone .display ops
  else if mnemonic = ['.', 'c', 'm', 'd'] then assembleRaw ops
  else none

/-- One line of assembly (R49): the command it stands for, or none for an assembly error. -/
def assembleLine (line : List Char) : Option Command :=
  let t := trim (withoutComment line)
  assembleParts (t.takeWhile fun c => !isBlank c)
    ((splitCommas (trim (t.dropWhile fun c => !isBlank c))).map trim)

/-- A listing, one command per line (R49). If a line is an assembly error the whole listing gives no commands: R49
says only that the line itself produces none (notes/assumptions/11.md, DESIGN CHOICE, safe). -/
def assemble : List (List Char) → Option (List Command)
  | [] => some []
  | line :: rest =>
    match assembleLine line, assemble rest with
    | some c, some cs => some (c :: cs)
    | _, _ => none

/-- A hexadecimal digit, `0` to `9` and `A` to `F`. -/
def hexDigit (d : Nat) : Char :=
  (['0', '1', '2', '3', '4', '5', '6', '7', '8', '9', 'A', 'B', 'C', 'D', 'E', 'F'][d]?).getD '0'

/-- The low `count` hexadecimal digits of `n`, most significant first. -/
def hexDigits : Nat → Nat → List Char
  | 0, _ => []
  | count + 1, n => hexDigits count (n / 16) ++ [hexDigit (n % 16)]

/-- The assembled form `CMD=0xHH A=0x<16 hex digits> B=0x<16 hex digits>` (R49). -/
def assembledForm (c : Command) : List Char :=
  ['C', 'M', 'D', '=', '0', 'x'] ++ hexDigits 2 c.cmd.toNat ++ [' ', 'A', '=', '0', 'x'] ++ hexDigits 16 c.a.toNat ++
    [' ', 'B', '=', '0', 'x'] ++ hexDigits 16 c.b.toNat

/-- An operand as a literal of 16 hexadecimal digits. -/
def operandText (p : Word) : List Char := '0' :: 'x' :: hexDigits 16 p.toNat

/-- A mnemonic with two operands. -/
def lineTwo (mnemonic : List Char) (a b : Word) : List Char :=
  mnemonic ++ ' ' :: (operandText a ++ ',' :: ' ' :: operandText b)

/-- A mnemonic with one operand. -/
def lineOne (mnemonic : List Char) (a : Word) : List Char := mnemonic ++ ' ' :: operandText a

/-- The name of a radix in assembly (R49). -/
def baseText (r : Base) : List Char :=
  match r with
  | .dec => ['D', 'E', 'C']
  | .bin => ['B', 'I', 'N']
  | .oct => ['O', 'C', 'T']
  | .hex => ['H', 'E', 'X']

/-- The width of a word size in assembly (R49). -/
def wordSizeText (w : WordSize) : List Char :=
  match w with
  | .byte => ['8']
  | .word => ['1', '6']
  | .dword => ['3', '2']
  | .qword => ['6', '4']

/-- One spelling of an instruction as a line of assembly (R40, R49); which one is the model's choice
(notes/assumptions/11.md, DESIGN CHOICE, safe). -/
def assemblyOf (i : Instr) : List Char :=
  match i with
  | .add a b => lineTwo ['a', 'd', 'd'] a b
  | .subtract a b => lineTwo ['s', 'u', 'b', 't', 'r', 'a', 'c', 't'] a b
  | .multiply a b => lineTwo ['m', 'u', 'l', 't', 'i', 'p', 'l', 'y'] a b
  | .divide a b => lineTwo ['d', 'i', 'v', 'i', 'd', 'e'] a b
  | .mod a b => lineTwo ['m', 'o', 'd'] a b
  | .bitAnd a b => lineTwo ['b', 'i', 't', 'A', 'n', 'd'] a b
  | .bitOr a b => lineTwo ['b', 'i', 't', 'O', 'r'] a b
  | .bitXor a b => lineTwo ['b', 'i', 't', 'X', 'o', 'r'] a b
  | .bitNot a => lineOne ['b', 'i', 't', 'N', 'o', 't'] a
  | .shl a b => lineTwo ['s', 'h', 'l'] a b
  | .shr a b => lineTwo ['s', 'h', 'r'] a b
  | .rol a b => lineTwo ['r', 'o', 'l'] a b
  | .ror a b => lineTwo ['r', 'o', 'r'] a b
  | .isqrt a => lineOne ['i', 's', 'q', 'r', 't'] a
  | .reciprocal a => lineOne ['r', 'e', 'c', 'i', 'p', 'r', 'o', 'c', 'a', 'l'] a
  | .setBase r => ['s', 'e', 't', 'B', 'a', 's', 'e', ' '] ++ baseText r
  | .setWordSize w => ['s', 'e', 't', 'W', 'o', 'r', 'd', 'S', 'i', 'z', 'e', ' '] ++ wordSizeText w
  | .setValue a => lineOne ['s', 'e', 't', 'V', 'a', 'l', 'u', 'e'] a
  | .setRaw a => lineOne ['s', 'e', 't', 'R', 'a', 'w'] a
  | .getValue => ['g', 'e', 't', 'V', 'a', 'l', 'u', 'e']
  | .getRaw => ['g', 'e', 't', 'R', 'a', 'w']
  | .display => ['d', 'i', 's', 'p', 'l', 'a', 'y']

end Sys2Proof.Machine
end

