-- ==== Sys2Proof/Safety.lean ====
section
/-! DEFINITION. What a good state, a good step and a completed or failed command of CALC-RE are, in the terms the
claims use. Each predicate is written from the rule it cites, over the fields and the output ports of the state. -/

namespace Sys2Proof.Machine

/-- The masking invariant: `raw & ~mask(w) = 0` (spec/10_state.md R16). -/
abbrev Masked (s : State) : Prop := s.raw &&& ~~~ mask s.ws = 0

/-- The text port is well formed: at most 64 characters, and `0x00` at and beyond `TEXT_LEN`
(45_rendering.md R84). -/
abbrev TextPadded (s : State) : Prop :=
  s.textLen.toNat ≤ 64 ∧ ∀ i : Fin 64, s.textLen.toNat ≤ i.val → s.text[i] = 0

/-- A response that reports an error carries no result and no text (30_encoding.md R46, 60_exceptions.md R89). -/
abbrev ErrorIsBare (s : State) : Prop := s.status ≠ .ok → s.result = 0 ∧ s.textLen = 0

/-- A character code of R84's table: a digit, an upper-case hexadecimal letter or `-`. -/
abbrev displayable (c : Byte) : Prop :=
  (0x30 ≤ c.toNat ∧ c.toNat ≤ 0x39) ∨ (0x41 ≤ c.toNat ∧ c.toNat ≤ 0x46) ∨ c.toNat = 0x2D

/-- The presented characters are all of R84's table. -/
abbrev TextDisplayable (s : State) : Prop := ∀ i : Fin 64, i.val < s.textLen.toNat → displayable s.text[i]

/-- The invariant of the machine: the register is masked and the held response is well formed. -/
abbrev Inv (s : State) : Prop := Masked s ∧ TextPadded s ∧ ErrorIsBare s ∧ TextDisplayable s

/-- No text is presented: `TEXT_LEN = 0` and all 64 bytes of `TEXT` are `0x00` (30_encoding.md R46). -/
abbrev NoText (t : State) : Prop := t.textLen = 0 ∧ ∀ i : Fin 64, t.text[i] = 0

/-- The word size and the radix are as they were. -/
abbrev ModesKept (s t : State) : Prop := t.ws = s.ws ∧ t.base = s.base

/-- The model's own fields, which no instruction touches, are as they were. -/
abbrev HostFieldsKept (s t : State) : Prop := t.resetSeen = s.resetSeen ∧ t.inputs = s.inputs

/-- From `s` to `t` a command completed by `store(r)` (00_scope.md R12, 30_encoding.md R46): `raw` is `r` modulo 2^w,
RESULT is that pattern read as a signed number of `w` bits, STATUS is Ok, no text, nothing else changed. -/
def Stores (s t : State) (r : Int) : Prop :=
  (t.raw.toNat : Int) = r % 2 ^ s.ws.bits ∧ t.result.toInt = r.bmod (2 ^ s.ws.bits) ∧
    statusO t = 0 ∧ NoText t ∧ ModesKept s t ∧ HostFieldsKept s t

/-- From `s` to `t` a command completed by writing `raw` bit by bit: bit `i` below `w` is `f i`, the bits from `w` up
are 0 in `raw` and copies of bit `w-1` in RESULT (00_scope.md R10, 30_encoding.md R46); the rest as in `Stores`. -/
def StoresBits (s t : State) (f : Nat → Bool) : Prop :=
  (∀ i, i < 64 → t.raw.getLsbD i = (decide (i < s.ws.bits) && f i)) ∧
    (∀ i, i < 64 → t.result.getLsbD i = if i < s.ws.bits then f i else f (s.ws.bits - 1)) ∧
    statusO t = 0 ∧ NoText t ∧ ModesKept s t ∧ HostFieldsKept s t

/-- From `s` to `t` a command failed with a STATUS code: RESULT is 0, there is no text, and the register and both
modes are as they were (60_exceptions.md R89, R90). -/
def Fails (s t : State) (code : BitVec 3) : Prop :=
  t.raw = s.raw ∧ ModesKept s t ∧ t.result = 0 ∧ statusO t = code ∧ NoText t ∧ HostFieldsKept s t

/-- The largest text lengths at each word size and radix (45_rendering.md R83). -/
def longestText (w : WordSize) (r : Base) : Nat :=
  match w, r with
  | .byte, .dec => 4
  | .byte, .bin => 8
  | .byte, .oct => 3
  | .byte, .hex => 2
  | .word, .dec => 6
  | .word, .bin => 16
  | .word, .oct => 6
  | .word, .hex => 4
  | .dword, .dec => 11
  | .dword, .bin => 32
  | .dword, .oct => 11
  | .dword, .hex => 8
  | .qword, .dec => 20
  | .qword, .bin => 64
  | .qword, .oct => 22
  | .qword, .hex => 16

/-- `n` steps of the machine, stopping at the first fault or refusal. -/
def runSteps (n : Nat) (s : State) : Host.Outcome State Fault Refusal := Host.Core.run Sys2Proof.core n s

end Sys2Proof.Machine
end

