-- ==== Sys2Proof/Certificates/Slice0/Obligations.lean ====
section
/-! DEFINITION. The statements for the provers, each from the rules it cites. -/

open Sys2Proof Sys2Proof.Machine

/-- Right after reset the register is 0, QWORD, DEC, and every output port reads 0 but WS_O, which reads 3 (R25). -/
def Obligations.ResetStateHoldsItsValues : Prop :=
  State.reset.raw = 0 ∧ State.reset.ws.bits = 64 ∧ State.reset.ws.code = 3 ∧ State.reset.base.code = 0 ∧
    State.reset.base = .dec ∧ sval State.reset = 0 ∧ uval State.reset = 0 ∧
    wsO State.reset = 3 ∧ baseO State.reset = 0 ∧
    statusO State.reset = 0 ∧ State.reset.result = 0 ∧ NoText State.reset

/-- From every state, a step on RST gives the reset values; the two clauses on the model's own fields are its choice
(log entries 1, 2) (70_reset_and_hazards.md R98, 10_state.md R25, log entry 1, log entry 2). The clauses
t.inputs = rest (log entry 1) and t.resetSeen = true (log entry 2) are the model's choice, on fields of its own. -/
def Obligations.RstGivesTheResetState : Prop :=
  ∀ (s : State) (rest : List HostInput), s.inputs = .rst :: rest →
    ∃ t, step s = .next t ∧ t.raw = 0 ∧ t.ws = .qword ∧ t.base = .dec ∧ statusO t = 0 ∧ t.result = 0 ∧
      NoText t ∧ t.resetSeen = true ∧ t.inputs = rest

/-- A command issued with no RST before it is refused; that State.reset has seen one is the model's choice (log
entry 2) (70_reset_and_hazards.md R100, log entry 2). -/
def Obligations.CommandBeforeFirstResetIsRefused : Prop :=
  State.reset.resetSeen = true ∧
    ∀ (s : State) (c : Command) (rest : List HostInput), s.inputs = .command c :: rest → s.resetSeen = false →
      step s = .refused .commandBeforeReset

/-- With nothing presented, a step changes nothing (the model's choice, log entry 1) (20_memory.md R32, log entry
1). -/
def Obligations.BlockWaitsWithoutInput : Prop :=
  ∀ s : State, s.inputs = [] → step s = .next s

/-- When the presented command decodes to an instruction, the step is exec of it on the state with that input
consumed (30_encoding.md R38, 30_encoding.md R45). -/
def Obligations.StepRunsTheDecodedInstruction : Prop :=
  ∀ (s : State) (c : Command) (rest : List HostInput) (i : Instr), s.inputs = .command c :: rest →
    s.resetSeen = true → decode c = .instr i → step s = exec i { s with inputs := rest }

/-- A word placed for the next step is what that step runs; its layout and the reset marked seen are the model's
choices (log entries 5, 2) (30_encoding.md R38, 30_encoding.md R40, log entry 1, log entry 2, log entry 5). The
word layout of log entry 5, the placing of log entry 1 and resetSeen := true of log entry 2 are the model's
choices. -/
def Obligations.FetchWordIsTheNextInstruction : Prop :=
  ∀ (s : State) (nbits w : Nat) (i : Instr), decodeTableWord nbits w = some i →
    step (s.withFetchWord nbits w) = exec i { s with resetSeen := true }

/-- A command word that is not legal answers STATUS 4 with no other effect, whatever A and B are (R91). -/
def Obligations.IllegalWordIsAnswered : Prop :=
  ∀ (s : State) (c : Command) (rest : List HostInput), s.inputs = .command c :: rest → s.resetSeen = true →
    c.legal = false → ∃ t, step s = .next t ∧ Fails { s with inputs := rest } t 4

/-- A command word is illegal exactly when it is one of R43's four reserved encodings, and then it decodes to no
instruction (R43). -/
def Obligations.ReservedEncodingsAreTheIllegalOnes : Prop :=
  ∀ c : Command,
    ((c.cmd.extractLsb' 0 5 = 0x00 ∨ 0x17 ≤ (c.cmd.extractLsb' 0 5).toNat ∨ c.cmd.getLsbD 7 = true ∨
        (c.cmd.extractLsb' 5 2 ≠ 0 ∧ c.cmd.extractLsb' 0 5 ≠ 0x10 ∧ c.cmd.extractLsb' 0 5 ≠ 0x11)) ↔
      c.legal = false) ∧
    (c.legal = false ↔ ∃ why, decode c = .reserved why) ∧ (c.legal = true ↔ ∃ i, decode c = .instr i)

/-- Of the 256 command words, 28 are legal: 0x01 to 0x16, 0x30, 0x31, 0x50, 0x51, 0x70 and 0x71 (30_encoding.md
R42). -/
def Obligations.ExactlyTwentyEightWordsAreLegal : Prop :=
  ((List.range 256).filter fun n => (Command.mk (BitVec.ofNat 8 n) 0 0).legal) =
      (List.range 0x16).map (· + 1) ++ [0x30, 0x31, 0x50, 0x51, 0x70, 0x71] ∧
    ((List.range 256).filter fun n => (Command.mk (BitVec.ofNat 8 n) 0 0).legal).length = 28

/-- One word of each family, written out bit by bit, decodes to its instruction (30_encoding.md R39, 30_encoding.md
R40). -/
def Obligations.SampleWordsDecode : Prop :=
  decode ⟨0b00000001, 5, 3⟩ = .instr (.add 5 3) ∧ decode ⟨0b00001000, 5, 3⟩ = .instr (.bitXor 5 3) ∧
    decode ⟨0b00001101, 5, 3⟩ = .instr (.ror 5 3) ∧ decode ⟨0b00001110, 5, 3⟩ = .instr (.isqrt 5) ∧
    decode ⟨0b01110000, 5, 3⟩ = .instr (.setBase .hex) ∧ decode ⟨0b00110001, 5, 3⟩ = .instr (.setWordSize .word) ∧
    decode ⟨0b00010110, 5, 3⟩ = .instr .display

/-- Decoding an encoded instruction gives it back; encoding a decoded command gives its word and every bus that
matters (30_encoding.md R39, 30_encoding.md R40, 30_encoding.md R44). -/
def Obligations.DecodeAndEncodeAgree : Prop :=
  (∀ i : Instr, decode (encode i) = .instr i) ∧
    ∀ (c : Command) (i : Instr), decode c = .instr i → (encode i).cmd = c.cmd ∧
      ((encode i).a = c.a ∨ ∀ x, decode { c with a := x } = decode c) ∧
      ((encode i).b = c.b ∨ ∀ x, decode { c with b := x } = decode c)

/-- The reset state meets the invariant (10_state.md R16, 45_rendering.md R84). -/
def Obligations.InvariantHoldsAtReset : Prop :=
  Inv State.reset

/-- Every step keeps the register masked and the held response well formed (R16). -/
def Obligations.EveryStepKeepsTheInvariant : Prop :=
  ∀ s t : State, Inv s → step s = .next t → Inv t

/-- add stores the exact sum modulo 2^w and returns its signed reading, with no error and no other effect (R52). -/
def Obligations.AddWrapsModuloTheWordSize : Prop :=
  ∀ (a b : Word) (s : State), decode ⟨0x01, a, b⟩ = .instr (.add a b) ∧
    ∃ t, exec (.add a b) s = .next t ∧ Stores s t (a.toInt + b.toInt)

/-- subtract stores the exact difference modulo 2^w and returns its signed reading, with no error and no other
effect (R53). -/
def Obligations.SubtractWrapsModuloTheWordSize : Prop :=
  ∀ (a b : Word) (s : State), decode ⟨0x02, a, b⟩ = .instr (.subtract a b) ∧
    ∃ t, exec (.subtract a b) s = .next t ∧ Stores s t (a.toInt - b.toInt)

/-- multiply stores the exact product modulo 2^w and returns its signed reading, with no error and no other effect
(R54). -/
def Obligations.MultiplyKeepsTheLowWordOfTheProduct : Prop :=
  ∀ (a b : Word) (s : State), decode ⟨0x03, a, b⟩ = .instr (.multiply a b) ∧
    ∃ t, exec (.multiply a b) s = .next t ∧ Stores s t (a.toInt * b.toInt)

/-- divide fails with DivisionByZero exactly for a zero divisor, and else stores the truncated quotient (R55). -/
def Obligations.DivideTruncatesTowardZero : Prop :=
  ∀ (a b : Word) (s : State), decode ⟨0x04, a, b⟩ = .instr (.divide a b) ∧
    (b = 0 → ∃ t, exec (.divide a b) s = .next t ∧ Fails s t 1) ∧
    (b ≠ 0 → ∃ t q r, exec (.divide a b) s = .next t ∧ a.toInt = b.toInt * q + r ∧ |r| < |b.toInt| ∧
      (0 < r → 0 < a.toInt) ∧ (r < 0 → a.toInt < 0) ∧ Stores s t q)

/-- mod fails with DivisionByZero exactly for a zero divisor, and else stores the remainder of the truncated
division (R56). -/
def Obligations.ModFollowsTheDividend : Prop :=
  ∀ (a b : Word) (s : State), decode ⟨0x05, a, b⟩ = .instr (.mod a b) ∧
    (b = 0 → ∃ t, exec (.mod a b) s = .next t ∧ Fails s t 1) ∧
    (b ≠ 0 → ∃ t q r, exec (.mod a b) s = .next t ∧ a.toInt = b.toInt * q + r ∧ |r| < |b.toInt| ∧
      (0 < r → 0 < a.toInt) ∧ (r < 0 → a.toInt < 0) ∧ Stores s t r)

/-- bitAnd writes each bit below w from the same bit of the operands and clears the rest (R59). -/
def Obligations.BitAndWorksBitByBit : Prop :=
  ∀ (a b : Word) (s : State), decode ⟨0x06, a, b⟩ = .instr (.bitAnd a b) ∧
    ∃ t, exec (.bitAnd a b) s = .next t ∧ StoresBits s t fun i => a.getLsbD i && b.getLsbD i

/-- bitOr writes each bit below w from the same bit of the operands and clears the rest (R60). -/
def Obligations.BitOrWorksBitByBit : Prop :=
  ∀ (a b : Word) (s : State), decode ⟨0x07, a, b⟩ = .instr (.bitOr a b) ∧
    ∃ t, exec (.bitOr a b) s = .next t ∧ StoresBits s t fun i => a.getLsbD i || b.getLsbD i

/-- bitXor writes each bit below w from the same bit of the operands and clears the rest (R61). -/
def Obligations.BitXorWorksBitByBit : Prop :=
  ∀ (a b : Word) (s : State), decode ⟨0x08, a, b⟩ = .instr (.bitXor a b) ∧
    ∃ t, exec (.bitXor a b) s = .next t ∧ StoresBits s t fun i => a.getLsbD i ^^ b.getLsbD i

/-- bitNot complements the bits below w, so that RESULT is -a - 1 reduced to w bits (R62). -/
def Obligations.BitNotComplementsWithinTheWord : Prop :=
  ∀ (a b : Word) (s : State), decode ⟨0x09, a, b⟩ = .instr (.bitNot a) ∧
    ∃ t, exec (.bitNot a) s = .next t ∧ StoresBits s t (fun i => !a.getLsbD i) ∧
      t.result.toInt = (-a.toInt - 1).bmod (2 ^ s.ws.bits)

/-- shl moves each bit up by the amount modulo w and fills with zeros (R65). -/
def Obligations.ShlFillsWithZerosFromTheRight : Prop :=
  ∀ (a b : Word) (s : State), decode ⟨0x0A, a, b⟩ = .instr (.shl a b) ∧
    ∃ t, exec (.shl a b) s = .next t ∧
      StoresBits s t fun i => decide (b.toNat % s.ws.bits ≤ i) && a.getLsbD (i - b.toNat % s.ws.bits)

/-- shr moves each bit of the word down by the amount modulo w and fills with zeros (R66). -/
def Obligations.ShrFillsWithZerosFromTheLeft : Prop :=
  ∀ (a b : Word) (s : State), decode ⟨0x0B, a, b⟩ = .instr (.shr a b) ∧
    ∃ t, exec (.shr a b) s = .next t ∧
      StoresBits s t fun i => decide (i + b.toNat % s.ws.bits < s.ws.bits) && a.getLsbD (i + b.toNat % s.ws.bits)

/-- rol moves bit j of the word to bit j + k modulo w (R67). -/
def Obligations.RolRotatesWithinTheWord : Prop :=
  ∀ (a b : Word) (s : State), decode ⟨0x0C, a, b⟩ = .instr (.rol a b) ∧
    ∃ t, exec (.rol a b) s = .next t ∧
      StoresBits s t fun i => a.getLsbD ((i + (s.ws.bits - b.toNat % s.ws.bits)) % s.ws.bits)

/-- ror moves bit j + k modulo w of the word to bit j (R68). -/
def Obligations.RorRotatesWithinTheWord : Prop :=
  ∀ (a b : Word) (s : State), decode ⟨0x0D, a, b⟩ = .instr (.ror a b) ∧
    ∃ t, exec (.ror a b) s = .next t ∧
      StoresBits s t fun i => a.getLsbD ((i + b.toNat % s.ws.bits) % s.ws.bits)

/-- isqrt fails with InvalidOperand exactly for a negative operand, and else stores the exact floor root (R70). -/
def Obligations.IsqrtStoresTheExactFloorRoot : Prop :=
  ∀ (a b : Word) (s : State), decode ⟨0x0E, a, b⟩ = .instr (.isqrt a) ∧
    (a.toInt < 0 → ∃ t, exec (.isqrt a) s = .next t ∧ Fails s t 2) ∧
    (0 ≤ a.toInt → ∃ t, ∃ r : Nat, exec (.isqrt a) s = .next t ∧ (r : Int) ^ 2 ≤ a.toInt ∧
      a.toInt < ((r : Int) + 1) ^ 2 ∧ Stores s t r)

/-- reciprocal stores 1 or -1 for those operands, fails with DivisionByZero for 0 and NotRepresentable for all
others (R71). -/
def Obligations.ReciprocalIsExactOrFails : Prop :=
  ∀ (a b : Word) (s : State), decode ⟨0x0F, a, b⟩ = .instr (.reciprocal a) ∧
    (a.toInt = 0 → ∃ t, exec (.reciprocal a) s = .next t ∧ Fails s t 1) ∧
    (a.toInt ≠ 0 → a.toInt ≠ 1 → a.toInt ≠ -1 → ∃ t, exec (.reciprocal a) s = .next t ∧ Fails s t 3) ∧
    (a.toInt = 1 ∨ a.toInt = -1 → ∃ t, exec (.reciprocal a) s = .next t ∧ Stores s t a.toInt)

/-- setBase writes the radix and nothing else, and returns the register's signed value (R72). -/
def Obligations.SetBaseChangesOnlyTheRadix : Prop :=
  (∀ a b : Word, decode ⟨0x10, a, b⟩ = .instr (.setBase .dec) ∧ decode ⟨0x30, a, b⟩ = .instr (.setBase .bin) ∧
      decode ⟨0x50, a, b⟩ = .instr (.setBase .oct) ∧ decode ⟨0x70, a, b⟩ = .instr (.setBase .hex)) ∧
    ∀ (r : Base) (s : State), ∃ t, exec (.setBase r) s = .next t ∧ t.base = r ∧ t.raw = s.raw ∧ t.ws = s.ws ∧
      t.result.toInt = (t.raw.toNat : Int).bmod (2 ^ t.ws.bits) ∧ statusO t = 0 ∧ NoText t ∧ HostFieldsKept s t

/-- setWordSize writes the word size, reduces raw to it, and returns the value at the new size (R73). -/
def Obligations.SetWordSizeRemasksTheRegister : Prop :=
  (∀ a b : Word, decode ⟨0x11, a, b⟩ = .instr (.setWordSize .byte) ∧
      decode ⟨0x31, a, b⟩ = .instr (.setWordSize .word) ∧ decode ⟨0x51, a, b⟩ = .instr (.setWordSize .dword) ∧
      decode ⟨0x71, a, b⟩ = .instr (.setWordSize .qword)) ∧
    ∀ (w : WordSize) (s : State), ∃ t, exec (.setWordSize w) s = .next t ∧ t.ws = w ∧
      t.raw.toNat = s.raw.toNat % 2 ^ w.bits ∧ t.base = s.base ∧
      t.result.toInt = (s.raw.toNat : Int).bmod (2 ^ w.bits) ∧ statusO t = 0 ∧ NoText t ∧ HostFieldsKept s t

/-- setValue stores its signed operand modulo 2^w (R74). -/
def Obligations.SetValueLoadsTheSignedOperand : Prop :=
  ∀ (a b : Word) (s : State), decode ⟨0x12, a, b⟩ = .instr (.setValue a) ∧
    ∃ t, exec (.setValue a) s = .next t ∧ Stores s t a.toInt ∧ t.raw = a &&& mask s.ws

/-- setRaw stores its unsigned operand modulo 2^w, and so does the same as setValue (R75). -/
def Obligations.SetRawLoadsTheUnsignedOperand : Prop :=
  ∀ (a b : Word) (s : State), decode ⟨0x13, a, b⟩ = .instr (.setRaw a) ∧
    (∃ t, exec (.setRaw a) s = .next t ∧ Stores s t (a.toNat : Int) ∧ t.raw = a &&& mask s.ws) ∧
    exec (.setRaw a) s = exec (.setValue a) s

/-- getValue returns the register sign-extended from w bits and changes nothing but the response (R76). -/
def Obligations.GetValueReadsTheSignedValue : Prop :=
  ∀ (a b : Word) (s : State), decode ⟨0x14, a, b⟩ = .instr .getValue ∧
    ∃ t, exec .getValue s = .next t ∧ t.raw = s.raw ∧ ModesKept s t ∧ t.result.toInt = (t.raw.toNat : Int).bmod (2 ^ t.ws.bits) ∧
      t.result.toInt = sval s ∧ -2 ^ (s.ws.bits - 1) ≤ t.result.toInt ∧ t.result.toInt < 2 ^ (s.ws.bits - 1) ∧
      statusO t = 0 ∧ NoText t ∧ HostFieldsKept s t

/-- getRaw returns the masked pattern unsigned and changes nothing but the response (R77). -/
def Obligations.GetRawReadsTheUnsignedPattern : Prop :=
  ∀ (a b : Word) (s : State), decode ⟨0x15, a, b⟩ = .instr .getRaw ∧
    ∃ t, exec .getRaw s = .next t ∧ t.raw = s.raw ∧ ModesKept s t ∧
      t.result.toNat = s.raw.toNat % 2 ^ s.ws.bits ∧ (Masked s → t.result = s.raw) ∧
      (∀ u, exec .getValue s = .next u →
        (t.result = u.result ↔ s.raw.getLsbD (s.ws.bits - 1) = false ∨ s.ws.bits = 64)) ∧
      statusO t = 0 ∧ NoText t ∧ HostFieldsKept s t

/-- display presents the rendering of the state, of 1 to 64 characters, and changes nothing but the response (R85,
R84). -/
def Obligations.DisplayPresentsTheText : Prop :=
  ∀ (a b : Word) (s : State), decode ⟨0x16, a, b⟩ = .instr .display ∧
    ∃ t, exec .display s = .next t ∧ t.raw = s.raw ∧ ModesKept s t ∧ t.result.toInt = (t.raw.toNat : Int).bmod (2 ^ t.ws.bits) ∧
      statusO t = 0 ∧ HostFieldsKept s t ∧
      t.textLen.toNat = (render s).length ∧ 1 ≤ t.textLen.toNat ∧ t.textLen.toNat ≤ 64 ∧
      (∀ (i : Fin 64) (c : Char), (render s)[i.val]? = some c → t.text[i].toNat = c.toNat) ∧
      (∀ i : Fin 64, t.textLen.toNat ≤ i.val → t.text[i] = 0) ∧ TextDisplayable t

/-- Rotating one way and then the other by the same amount gives the value reduced to the word (42_shift_rotate.md
R69). -/
def Obligations.RotatesAreInverse : Prop :=
  ∀ (v n : Word) (s : State),
    (∃ t u, exec (.rol v n) s = .next t ∧ exec (.ror t.result n) t = .next u ∧ u.raw = v &&& mask s.ws) ∧
    (∃ t u, exec (.ror v n) s = .next t ∧ exec (.rol t.result n) t = .next u ∧ u.raw = v &&& mask s.ws)

/-- Rotating left by k is rotating right by w - k, and amounts that differ by w agree (42_shift_rotate.md R69,
42_shift_rotate.md R64). -/
def Obligations.RotateAmountsWrapAround : Prop :=
  ∀ (v n : Word) (s : State),
    (∀ k : Nat, 0 < k → k < s.ws.bits →
      exec (.rol v (BitVec.ofNat 64 k)) s = exec (.ror v (BitVec.ofNat 64 (s.ws.bits - k))) s) ∧
    exec (.rol v (n + BitVec.ofNat 64 s.ws.bits)) s = exec (.rol v n) s ∧
    exec (.ror v (n + BitVec.ofNat 64 s.ws.bits)) s = exec (.ror v n) s

/-- A rotate preserves the number of set bits of the word (42_shift_rotate.md R69). -/
def Obligations.RotatesKeepTheNumberOfSetBits : Prop :=
  ∀ (v n : Word) (s : State),
    (∃ t, exec (.rol v n) s = .next t ∧ (List.range 64).countP (fun i => t.raw.getLsbD i) =
      (List.range s.ws.bits).countP fun i => v.getLsbD i) ∧
    (∃ t, exec (.ror v n) s = .next t ∧ (List.range 64).countP (fun i => t.raw.getLsbD i) =
      (List.range s.ws.bits).countP fun i => v.getLsbD i)

/-- shl by k is multiply by 2^k, and shr by k divides the unsigned word by 2^k, rounding down (42_shift_rotate.md
R69, 42_shift_rotate.md R64). -/
def Obligations.ShiftsAreMultiplicationAndDivision : Prop :=
  ∀ (v n : Word) (s : State),
    exec (.shl v n) s = exec (.multiply v (BitVec.ofNat 64 (2 ^ (n.toNat % s.ws.bits)))) s ∧
    ∃ t, exec (.shr v n) s = .next t ∧
      t.raw.toNat = (v.toNat % 2 ^ s.ws.bits) / 2 ^ (n.toNat % s.ws.bits)

/-- The laws of word-size change: what a read gives after it, narrowing then widening, and commuting with setBase
(R78). -/
def Obligations.WordSizeChangesCompose : Prop :=
  ∀ (s : State) (w : WordSize),
    (∃ t u x, exec (.setWordSize w) s = .next t ∧ exec .getRaw t = .next u ∧ u.result = s.raw &&& mask w ∧
      exec .getValue t = .next x ∧ x.result.toInt = (s.raw.toNat : Int).bmod (2 ^ w.bits)) ∧
    (∀ w' : WordSize, w.bits ≤ w'.bits → ∃ t u, exec (.setWordSize w) s = .next t ∧
      exec (.setWordSize w') t = .next u ∧ u.raw = s.raw &&& mask w) ∧
    (∀ r : Base, ∃ t u t' u', exec (.setWordSize w) s = .next t ∧ exec (.setBase r) t = .next u ∧
      exec (.setBase r) s = .next t' ∧ exec (.setWordSize w) t' = .next u' ∧ u = u')

/-- A command that fails leaves raw, ws and base exactly as they were (R90). -/
def Obligations.FailedCommandChangesNothing : Prop :=
  (∀ (i : Instr) (s t : State), exec i s = .next t → statusO t ≠ 0 → Fails s t (statusO t)) ∧
    ∀ (s t : State) (c : Command) (rest : List HostInput), s.inputs = .command c :: rest → step s = .next t →
      statusO t ≠ 0 → Fails { s with inputs := rest } t (statusO t)

/-- The STATUS of every command: which commands fail, on which operands, with which code, and in which order of
checks (R87, R88, R92). -/
def Obligations.StatusOfEveryCommand : Prop :=
  ∀ (s : State) (c : Command) (rest : List HostInput), s.inputs = .command c :: rest → s.resetSeen = true →
    ∃ t, step s = .next t ∧ statusO t =
      if c.legal = false then 4
      else if (c.cmd = 0x04 ∨ c.cmd = 0x05) ∧ c.b = 0 then 1
      else if c.cmd = 0x0E ∧ c.a.toInt < 0 then 2
      else if c.cmd = 0x0F ∧ c.a.toInt = 0 then 1
      else if c.cmd = 0x0F ∧ c.a.toInt ≠ 1 ∧ c.a.toInt ≠ -1 then 3
      else 0

/-- Only setWordSize changes the word size, only setBase changes the radix, and the reads and setBase leave raw
alone (10_state.md R15, 10_state.md R18, 10_state.md R19, 20_memory.md R31). -/
def Obligations.ModesHaveOneWriterEach : Prop :=
  ∀ (i : Instr) (s t : State), exec i s = .next t →
    (t.ws ≠ s.ws → ∃ w, i = .setWordSize w) ∧ (t.base ≠ s.base → ∃ r, i = .setBase r) ∧
    ((i = .getValue ∨ i = .getRaw ∨ i = .display ∨ ∃ r, i = .setBase r) → t.raw = s.raw) ∧ HostFieldsKept s t

/-- The radix never affects raw, the word size, STATUS or RESULT: only the text of display (10_state.md R19). -/
def Obligations.RadixAffectsOnlyTheText : Prop :=
  ∀ (i : Instr) (s t u : State) (r : Base), exec i s = .next t → exec i { s with base := r } = .next u →
    u.raw = t.raw ∧ u.ws = t.ws ∧ u.status = t.status ∧ u.result = t.result ∧
    (i ≠ .display → u.textLen = t.textLen ∧ u.text = t.text)

/-- The commands add to reciprocal give the same outcome whatever raw held before (R17). -/
def Obligations.AluCommandsDoNotReadTheRegister : Prop :=
  ∀ (i : Instr) (s t u : State) (v : Word), (encode i).cmd.toNat ≤ 0x0F → exec i s = .next t →
    exec i { s with raw := v } = .next u →
    u.status = t.status ∧ u.result = t.result ∧ u.textLen = t.textLen ∧ u.text = t.text ∧
    (t.status = .ok → u = t)

/-- What a command does does not depend on the response the block still holds, an error included (20_memory.md R31,
60_exceptions.md R94, 10_state.md R22). -/
def Obligations.EarlierResponsesLeaveNoTrace : Prop :=
  ∀ (i : Instr) (s : State) (st : Status) (v : Word) (n : BitVec 7) (tx : Vector Byte 64),
    exec i { s with status := st, result := v, textLen := n, text := tx } = exec i s

/-- A bus that a command does not read has no effect on the state or the response (30_encoding.md R44,
60_exceptions.md R91). -/
def Obligations.UnreadBusesHaveNoEffect : Prop :=
  ∀ (s : State) (c : Command) (x : Word) (rest : List HostInput),
    (c.opc = 0x09 ∨ 0x0E ≤ c.opc.toNat ∨ c.legal = false →
      step { s with inputs := .command c :: rest } = step { s with inputs := .command { c with b := x } :: rest }) ∧
    (c.opc = 0x10 ∨ c.opc = 0x11 ∨ 0x14 ≤ c.opc.toNat ∨ c.legal = false →
      step { s with inputs := .command c :: rest } = step { s with inputs := .command { c with a := x } :: rest })

/-- Once a reset has been seen, every step goes on and takes the next input; a step that waits is the model's choice
(log entry 1) (70_reset_and_hazards.md R104, 60_exceptions.md R93, 70_reset_and_hazards.md R98, log entry 1, log
entry 2). R104 and R93 speak of commands and R98 of RST. The step with nothing presented (log entry 1) and the
field resetSeen (log entry 2) are the model's choice. -/
def Obligations.EveryStepCompletes : Prop :=
  ∀ s : State, s.resetSeen = true → ∃ t, step s = .next t ∧ t.resetSeen = true ∧ t.inputs = s.inputs.tail

/-- A successful command returns the register after it, sign-extended (getRaw: zero-extended), with text only from
display; a failed one only its code (R46). -/
def Obligations.ResultIsTheRegisterAfterTheCommand : Prop :=
  (∀ (i : Instr) (s t : State), exec i s = .next t →
      (statusO t = 0 →
        (i = .getRaw → t.result.toNat = t.raw.toNat % 2 ^ t.ws.bits) ∧
        (i ≠ .getRaw → t.result.toInt = (t.raw.toNat : Int).bmod (2 ^ t.ws.bits)) ∧
        (i ≠ .display → NoText t) ∧ (i = .display → t.textLen.toNat = (render t).length ∧
          ∀ (j : Fin 64) (c : Char), (render t)[j.val]? = some c → t.text[j].toNat = c.toNat)) ∧
      (statusO t ≠ 0 → t.result = 0 ∧ NoText t)) ∧
    ∀ (s t : State) (c : Command) (rest : List HostInput), s.inputs = .command c :: rest → c.legal = false →
      step s = .next t → t.result = 0 ∧ NoText t

/-- sval is the w-bit two's-complement reading of raw and uval the unsigned one (10_state.md R20, 10_state.md R21). -/
def Obligations.RegisterReadingsAreInRange : Prop :=
  ∀ s : State, -2 ^ (s.ws.bits - 1) ≤ sval s ∧ sval s < 2 ^ (s.ws.bits - 1) ∧
    (sval s - (s.raw.toNat : Int)) % 2 ^ s.ws.bits = 0 ∧ uval s < 2 ^ s.ws.bits ∧
    (Masked s → uval s = s.raw.toNat) ∧
    sval s = (uval s : Int) - (if s.raw.getLsbD (s.ws.bits - 1) then 2 ^ s.ws.bits else 0)

/-- The effect of a list of inputs is the sequential composition of theirs: each sees every earlier one and no later
one (R33). -/
def Obligations.RunsComposeSequentially : Prop :=
  ∀ (xs ys : List HostInput) (s t : State), runSteps xs.length { s with inputs := xs } = .next t →
    ∀ n, runSteps (xs.length + n) { s with inputs := xs ++ ys } = runSteps n { t with inputs := ys }

/-- After any inputs, RST leaves exactly State.reset, whose two fields of the model's own are its choice (log
entries 1 and 2) (70_reset_and_hazards.md R98, 70_reset_and_hazards.md R99, 10_state.md R25, log entry 1, log
entry 2). State.reset fixes the model's own inputs (log entry 1) and resetSeen (log entry 2). -/
def Obligations.ResetDiscardsTheHistory : Prop :=
  ∀ (xs : List HostInput) (s : State), s.resetSeen = true →
    runSteps (xs.length + 1) { s with inputs := xs ++ [.rst] } = .next State.reset

/-- In BIN, OCT and HEX the text is the numeral of the unsigned pattern in radix 2, 8 or 16, upper case, no sign, no
leading zeros (R82). -/
def Obligations.RadixTextIsThePositionalNumeral : Prop :=
  ∀ (s : State) (radix : Nat),
    ((s.base = .bin ∧ radix = 2) ∨ (s.base = .oct ∧ radix = 8) ∨ (s.base = .hex ∧ radix = 16)) →
    ∃ ds : List Nat, render s = ds.map (fun d => "0123456789ABCDEF".toList.getD d '?') ∧ ds ≠ [] ∧
      (∀ d ∈ ds, d < radix) ∧ (ds.head? = some 0 → ds = [0]) ∧
      ds.foldl (fun acc d => acc * radix + d) 0 = s.raw.toNat % 2 ^ s.ws.bits

/-- In DEC the text is the decimal numeral of the signed value, with a leading minus sign exactly for a negative one
(R81). -/
def Obligations.DecimalTextIsTheSignedNumeral : Prop :=
  ∀ s : State, s.base = .dec →
    ∃ ds : List Nat, render s = (if (s.raw.toNat : Int).bmod (2 ^ s.ws.bits) < 0 then ['-'] else []) ++
        ds.map (fun d => "0123456789ABCDEF".toList.getD d '?') ∧ ds ≠ [] ∧
      (∀ d ∈ ds, d < 10) ∧ (ds.head? = some 0 → ds = [0]) ∧
      ds.foldl (fun acc d => acc * 10 + d) 0 = ((s.raw.toNat : Int).bmod (2 ^ s.ws.bits)).natAbs

/-- The text has 1 to 64 characters, and the largest length at each word size and radix is the table's (R83). -/
def Obligations.TextLengthsAreThoseOfTheTable : Prop :=
  (∀ s : State, 1 ≤ (render s).length ∧ (render s).length ≤ longestText s.ws s.base ∧ (render s).length ≤ 64) ∧
    ∀ (w : WordSize) (r : Base), ∃ s : State, s.ws = w ∧ s.base = r ∧ Masked s ∧ (render s).length = longestText w r

/-- For a fixed word size and radix the text determines the register (45_rendering.md R86). -/
def Obligations.RenderingIsInjective : Prop :=
  ∀ s t : State, Masked s → Masked t → s.ws = t.ws → s.base = t.base → render s = render t → s.raw = t.raw

/-- Each instruction's line of assembly, in the one spelling that is the model's choice (log entry 11), assembles to
its command (30_encoding.md R49, 30_encoding.md R40, log entry 11). Which of R49's spellings assemblyOf writes
is the model's choice. -/
def Obligations.AssemblyOfAnInstructionAssemblesToIt : Prop :=
  ∀ i : Instr, assembleLine (assemblyOf i) = some (encode i)

/-- setValue with an operand in [-2^63, 2^64 - 1], as its shortest decimal numeral, assembles to the operand's
64-bit pattern (30_encoding.md R49). -/
def Obligations.DecimalLiteralsAssemble : Prop :=
  ∀ x : Int, -2 ^ 63 ≤ x → x < 2 ^ 64 →
    assembleLine ("setValue ".toList ++ decText x) = some ⟨0x12, BitVec.ofInt 64 x, 0⟩

/-- Each of the four codes names its own word size and radix, w = 8 * 2^ws, and mask(w) has exactly the low w bits
set (10_state.md R18, 10_state.md R19, 00_scope.md R10, 30_encoding.md R47). -/
def Obligations.ModeCodesAndMasks : Prop :=
  ∀ (c : BitVec 2) (s : State), (WordSize.ofCode c).code = c ∧ (Base.ofCode c).code = c ∧
    wsO { s with ws := WordSize.ofCode c } = c ∧ baseO { s with base := Base.ofCode c } = c ∧
    (WordSize.ofCode c).bits = 8 * 2 ^ c.toNat ∧
    ∀ i, (mask (WordSize.ofCode c)).getLsbD i = decide (i < 8 * 2 ^ c.toNat)
end

