-- ==== Sys2Proof/Laws/Assembler.lean ====
section
/-! SUPPORT. What the assembler (spec/30_encoding.md R49) makes of a line, once per shape of line, and of a
hexadecimal literal. -/

namespace Sys2Proof.Machine

/-- A character that separates nothing: no white space, no comma, no `;`. -/
def plainChar (c : Char) : Bool := !isBlank c && c != ',' && c != ';'

theorem plainChar_not_blank {c : Char} (h : plainChar c = true) : isBlank c = false := by
  simp [plainChar] at h
  exact h.1.1

theorem plainChar_ne_comma {c : Char} (h : plainChar c = true) : c ≠ ',' := by
  simp [plainChar] at h
  exact h.1.2

theorem plainChar_ne_semicolon {c : Char} (h : plainChar c = true) : c ≠ ';' := by
  simp [plainChar] at h
  exact h.2

theorem takeWhile_append_of_all {p : Char → Bool} (m r : List Char) (hm : ∀ c ∈ m, p c = true) :
    (m ++ r).takeWhile p = m ++ r.takeWhile p := by
  induction m with
  | nil => rfl
  | cons c m ih => simp [hm c (by simp), ih (fun c hc => hm c (by simp [hc]))]

theorem dropWhile_append_of_all {p : Char → Bool} (m r : List Char) (hm : ∀ c ∈ m, p c = true) :
    (m ++ r).dropWhile p = r.dropWhile p := by
  induction m with
  | nil => rfl
  | cons c m ih => simp [hm c (by simp), ih (fun c hc => hm c (by simp [hc]))]

/-- A text between two characters that are not white space has nothing to trim. -/
theorem trim_of_ends {c l : Char} {t t' : List Char} (hc : isBlank c = false) (hl : isBlank l = false)
    (e : (c :: t).reverse = l :: t') : trim (c :: t) = c :: t := by
  rw [trim, show (c :: t).dropWhile isBlank = c :: t by simp [List.dropWhile, hc], e,
    show (l :: t').dropWhile isBlank = l :: t' by simp [List.dropWhile, hl], ← e, List.reverse_reverse]

theorem trim_blank_cons {c : Char} (t : List Char) (h : isBlank c = true) : trim (c :: t) = trim t := by
  simp [trim, List.dropWhile, h]

theorem trim_append (x m y : List Char) (hx : ∀ c ∈ x, plainChar c = true) (hy : ∀ c ∈ y, plainChar c = true)
    (hx0 : x ≠ []) (hy0 : y ≠ []) : trim (x ++ m ++ y) = x ++ m ++ y := by
  cases x with
  | nil => exact absurd rfl hx0
  | cons c t =>
    cases e : y.reverse with
    | nil => exact absurd (List.reverse_eq_nil_iff.1 e) hy0
    | cons l t' =>
      have hl : l ∈ y := by rw [← List.mem_reverse, e]; simp
      refine trim_of_ends (t := t ++ m ++ y) (t' := t' ++ (c :: t ++ m).reverse)
        (plainChar_not_blank (hx c (by simp))) (plainChar_not_blank (hy l hl)) ?_
      rw [show c :: (t ++ m ++ y) = (c :: t ++ m) ++ y by simp, List.reverse_append, e]
      rfl

theorem trim_plain (t : List Char) (h : ∀ c ∈ t, plainChar c = true) : trim t = t := by
  cases t with
  | nil => rfl
  | cons c t =>
    cases e : (c :: t).reverse with
    | nil => simp at e
    | cons l t' =>
      have hl : l ∈ c :: t := by rw [← List.mem_reverse, e]; simp
      exact trim_of_ends (plainChar_not_blank (h c (by simp))) (plainChar_not_blank (h l hl)) e

theorem splitCommas_plain (x : List Char) (h : ∀ c ∈ x, plainChar c = true) (hx : x ≠ []) :
    splitCommas x = [x] := by
  induction x with
  | nil => exact absurd rfl hx
  | cons c t ih =>
    rw [splitCommas, if_neg (plainChar_ne_comma (h c (by simp)))]
    cases t with
    | nil => rfl
    | cons d t => rw [ih (fun c hc => h c (by simp [hc])) (by simp)]

theorem splitCommas_two (x y : List Char) (hx : ∀ c ∈ x, plainChar c = true) (hy : ∀ c ∈ y, plainChar c = true)
    (hx0 : x ≠ []) (hy0 : y ≠ []) : splitCommas (x ++ ',' :: ' ' :: y) = [x, ' ' :: y] := by
  induction x with
  | nil => exact absurd rfl hx0
  | cons c t ih =>
    rw [List.cons_append, splitCommas, if_neg (plainChar_ne_comma (hx c (by simp)))]
    cases t with
    | nil =>
      have : splitCommas (' ' :: y) = [' ' :: y] := by
        rw [splitCommas, if_neg (by decide), splitCommas_plain y hy hy0]
      rw [List.nil_append, splitCommas, if_pos rfl, this]
    | cons d t => rw [ih (fun c hc => hx c (by simp [hc])) (by simp)]

theorem withoutComment_of_none (t : List Char) (h : ∀ c ∈ t, c ≠ ';') : withoutComment t = t := by
  simpa [withoutComment] using takeWhile_append_of_all t [] (p := (· != ';')) (by simpa using h)

/-- A line of a mnemonic alone. -/
theorem assembleLine_bare (m : List Char) (hm : ∀ c ∈ m, plainChar c = true) :
    assembleLine m = assembleParts m [] := by
  have hb : ∀ c ∈ m, (!isBlank c) = true := fun c hc => by simp [(plainChar_not_blank (hm c hc))]
  have h1 := takeWhile_append_of_all m [] hb
  have h2 := dropWhile_append_of_all m [] hb
  simp only [List.append_nil, List.takeWhile_nil, List.dropWhile_nil] at h1 h2
  unfold assembleLine
  rw [withoutComment_of_none _ (fun c hc => (plainChar_ne_semicolon (hm c hc))), trim_plain _ hm]
  dsimp only
  rw [h1, h2]
  rfl

/-- A line of a mnemonic and one operand. -/
theorem assembleLine_one (m x : List Char) (hm : ∀ c ∈ m, plainChar c = true) (hm0 : m ≠ [])
    (hx : ∀ c ∈ x, plainChar c = true) (hx0 : x ≠ []) :
    assembleLine (m ++ ' ' :: x) = assembleParts m [x] := by
  have hb : ∀ c ∈ m, (!isBlank c) = true := fun c hc => by simp [(plainChar_not_blank (hm c hc))]
  have hs : ∀ c ∈ m ++ ' ' :: x, c ≠ ';' := by
    intro c hc
    simp only [List.mem_append, List.mem_cons] at hc
    rcases hc with h | rfl | h
    · exact plainChar_ne_semicolon (hm c h)
    · decide
    · exact plainChar_ne_semicolon (hx c h)
  unfold assembleLine
  rw [withoutComment_of_none _ hs, show m ++ ' ' :: x = m ++ [' '] ++ x by simp,
    trim_append _ _ _ hm hx hm0 hx0, List.append_assoc]
  dsimp only
  rw [takeWhile_append_of_all m _ hb, dropWhile_append_of_all m _ hb]
  simp only [List.singleton_append, List.takeWhile, List.dropWhile, show (!isBlank ' ') = false by decide,
    List.append_nil]
  rw [trim_blank_cons _ (by decide), trim_plain _ hx, splitCommas_plain _ hx hx0, List.map_singleton,
    trim_plain _ hx]

/-- A line of a mnemonic and two operands. -/
theorem assembleLine_two (m x y : List Char) (hm : ∀ c ∈ m, plainChar c = true) (hm0 : m ≠ [])
    (hx : ∀ c ∈ x, plainChar c = true) (hx0 : x ≠ []) (hy : ∀ c ∈ y, plainChar c = true) (hy0 : y ≠ []) :
    assembleLine (m ++ ' ' :: (x ++ ',' :: ' ' :: y)) = assembleParts m [x, y] := by
  have hb : ∀ c ∈ m, (!isBlank c) = true := fun c hc => by simp [(plainChar_not_blank (hm c hc))]
  have hs : ∀ c ∈ m ++ ' ' :: (x ++ ',' :: ' ' :: y), c ≠ ';' := by
    intro c hc
    simp only [List.mem_append, List.mem_cons] at hc
    rcases hc with h | rfl | h | rfl | rfl | h
    · exact plainChar_ne_semicolon (hm c h)
    · decide
    · exact plainChar_ne_semicolon (hx c h)
    · decide
    · decide
    · exact plainChar_ne_semicolon (hy c h)
  unfold assembleLine
  rw [withoutComment_of_none _ hs,
    show m ++ ' ' :: (x ++ ',' :: ' ' :: y) = m ++ (' ' :: x ++ [',', ' ']) ++ y by simp,
    trim_append _ _ _ hm hy hm0 hy0, List.append_assoc]
  dsimp only
  rw [takeWhile_append_of_all m _ hb, dropWhile_append_of_all m _ hb]
  simp only [List.cons_append, List.takeWhile, List.dropWhile, show (!isBlank ' ') = false by decide,
    List.append_nil]
  rw [trim_blank_cons _ (by decide), trim_append _ _ _ hx hy hx0 hy0,
    show x ++ [',', ' '] ++ y = x ++ ',' :: ' ' :: y by simp, splitCommas_two _ _ hx hy hx0 hy0]
  simp only [List.map_cons, List.map_nil]
  rw [trim_plain _ hx, trim_blank_cons _ (by decide), trim_plain _ hy]

theorem digitValue_hexDigit : ∀ d < 16, digitValue (hexDigit d) = some d ∧ plainChar (hexDigit d) = true := by
  decide

theorem readDigits_append (radix : Nat) (x y : List Char) (acc : Nat) :
    readDigits radix (x ++ y) acc = (readDigits radix x acc).bind (readDigits radix y) := by
  induction x generalizing acc with
  | nil => rfl
  | cons c t ih =>
    simp only [List.cons_append, readDigits]
    cases digitValue c with
    | none => rfl
    | some d =>
      simp only
      split
      · exact ih _
      · rfl

/-- Reading back the low hexadecimal digits of `n`. -/
theorem readDigits_hexDigits (k n acc : Nat) :
    readDigits 16 (hexDigits k n) acc = some (acc * 16 ^ k + n % 16 ^ k) := by
  induction k generalizing n with
  | zero => simp [hexDigits, readDigits, Nat.mod_one]
  | succ k ih =>
    have h16 := Nat.mod_lt n (show 0 < 16 by decide)
    rw [hexDigits, readDigits_append, ih]
    simp only [Option.bind_some, readDigits, (digitValue_hexDigit _ h16).1, h16, if_true]
    rw [Nat.pow_succ', Nat.mod_mul]
    congr 1
    ring

theorem length_hexDigits (k n : Nat) : (hexDigits k n).length = k := by
  induction k generalizing n with
  | zero => rfl
  | succ k ih => simp [hexDigits, ih]

theorem plainChar_hexDigits (k n : Nat) : ∀ c ∈ hexDigits k n, plainChar c = true := by
  induction k generalizing n with
  | zero => simp [hexDigits]
  | succ k ih =>
    intro c hc
    rw [hexDigits, List.mem_append] at hc
    rcases hc with h | h
    · exact ih _ c h
    · rw [List.mem_singleton.1 h]
      exact (digitValue_hexDigit _ (Nat.mod_lt _ (by decide))).2

/-- An operand written as a literal reads back as the same pattern. -/
theorem readOperand_operandText (p : Word) : readOperand (operandText p) = some p := by
  have hne : (hexDigits 16 p.toNat).isEmpty = false := by
    rw [List.isEmpty_eq_false_iff, ← List.length_pos_iff, length_hexDigits]
    decide
  have hlt : p.toNat % 18446744073709551616 = p.toNat := Nat.mod_eq_of_lt p.isLt
  simp [operandText, readOperand, length_hexDigits, readNumber, hne, readDigits_hexDigits, hlt]

theorem plainChar_operandText (p : Word) : ∀ c ∈ operandText p, plainChar c = true := by
  intro c hc
  simp only [operandText, List.mem_cons] at hc
  rcases hc with rfl | rfl | h
  · decide
  · decide
  · exact plainChar_hexDigits _ _ c h

theorem operandText_ne_nil (p : Word) : operandText p ≠ [] := by simp [operandText]

end Sys2Proof.Machine
end

