-- ==== Sys2Proof/Laws/Decode.lean ====
section
/-! SUPPORT. The fields of a command word, read off the word alone, and what decoding can answer. -/

namespace Sys2Proof

@[simp] theorem Command.opc_mk (w : Byte) (a b : Word) : (Command.mk w a b).opc = w.extractLsb' 0 5 := rfl
@[simp] theorem Command.arg_mk (w : Byte) (a b : Word) : (Command.mk w a b).arg = w.extractLsb' 5 2 := rfl
@[simp] theorem Command.rsv_mk (w : Byte) (a b : Word) : (Command.mk w a b).rsv = w.getLsbD 7 := rfl

/-- Legality is a matter of the command word alone (spec/30_encoding.md R42, 60_exceptions.md R91). -/
theorem Command.legal_mk (w : Byte) (a b : Word) : (Command.mk w a b).legal = (Command.mk w 0 0).legal := rfl

/-- A word with the reserved bit clear is decoded by its operation code (R39). -/
theorem decode_of_rsv_clear {c : Command} (h : c.rsv = false) : decode c = decodeOpcode c := by
  simp [decode, h]

theorem decode_of_rsv_set {c : Command} (h : c.rsv = true) : decode c = .reserved .reservedBitSet := by
  simp [decode, h]

@[simp] theorem WordSize.ofCode_code (w : WordSize) : WordSize.ofCode w.code = w := by
  cases w <;> rfl

@[simp] theorem WordSize.code_ofCode (c : BitVec 2) : (WordSize.ofCode c).code = c := by
  revert c; decide

@[simp] theorem Base.ofCode_code (b : Base) : Base.ofCode b.code = b := by
  cases b <;> rfl

@[simp] theorem Base.code_ofCode (c : BitVec 2) : (Base.ofCode c).code = c := by
  revert c; decide

/-- What a command holds when it decodes to `i`: the operation code of R40, `ARG` and the buses that `i` reads. -/
def Instr.matchesCommand (i : Instr) (c : Command) : Prop :=
  match i with
  | .add a b => c.opc = 0x01 ∧ c.arg = 0 ∧ a = c.a ∧ b = c.b
  | .subtract a b => c.opc = 0x02 ∧ c.arg = 0 ∧ a = c.a ∧ b = c.b
  | .multiply a b => c.opc = 0x03 ∧ c.arg = 0 ∧ a = c.a ∧ b = c.b
  | .divide a b => c.opc = 0x04 ∧ c.arg = 0 ∧ a = c.a ∧ b = c.b
  | .mod a b => c.opc = 0x05 ∧ c.arg = 0 ∧ a = c.a ∧ b = c.b
  | .bitAnd a b => c.opc = 0x06 ∧ c.arg = 0 ∧ a = c.a ∧ b = c.b
  | .bitOr a b => c.opc = 0x07 ∧ c.arg = 0 ∧ a = c.a ∧ b = c.b
  | .bitXor a b => c.opc = 0x08 ∧ c.arg = 0 ∧ a = c.a ∧ b = c.b
  | .bitNot a => c.opc = 0x09 ∧ c.arg = 0 ∧ a = c.a
  | .shl a b => c.opc = 0x0a ∧ c.arg = 0 ∧ a = c.a ∧ b = c.b
  | .shr a b => c.opc = 0x0b ∧ c.arg = 0 ∧ a = c.a ∧ b = c.b
  | .rol a b => c.opc = 0x0c ∧ c.arg = 0 ∧ a = c.a ∧ b = c.b
  | .ror a b => c.opc = 0x0d ∧ c.arg = 0 ∧ a = c.a ∧ b = c.b
  | .isqrt a => c.opc = 0x0e ∧ c.arg = 0 ∧ a = c.a
  | .reciprocal a => c.opc = 0x0f ∧ c.arg = 0 ∧ a = c.a
  | .setBase r => c.opc = 0x10 ∧ r = Base.ofCode c.arg
  | .setWordSize w => c.opc = 0x11 ∧ w = WordSize.ofCode c.arg
  | .setValue a => c.opc = 0x12 ∧ c.arg = 0 ∧ a = c.a
  | .setRaw a => c.opc = 0x13 ∧ c.arg = 0 ∧ a = c.a
  | .getValue => c.opc = 0x14 ∧ c.arg = 0
  | .getRaw => c.opc = 0x15 ∧ c.arg = 0
  | .display => c.opc = 0x16 ∧ c.arg = 0

theorem plain_eq_instr {c : Command} {i j : Instr} (h : plain c i = .instr j) : c.arg = 0 ∧ j = i := by
  unfold plain at h
  split at h
  · next h0 => cases h; exact ⟨h0, rfl⟩
  · cases h

/-- What decoding to an instruction takes, whole (R39 to R44). -/
theorem decode_eq_instr {c : Command} {i : Instr} (h : decode c = .instr i) :
    c.rsv = false ∧ i.matchesCommand c := by
  unfold decode at h
  split at h
  · cases h
  next hr =>
  refine ⟨by simpa using hr, ?_⟩
  unfold decodeOpcode at h
  split at h
  all_goals first
    | cases h; done
    | (next ho => obtain ⟨h0, rfl⟩ := plain_eq_instr h; simp [Instr.matchesCommand, h0, ← BitVec.toNat_inj, ho])
    | (next ho => cases h; simp [Instr.matchesCommand, ← BitVec.toNat_inj, ho])

/-- A command that holds what `i` takes decodes to it. -/
theorem decode_of_matches {c : Command} {i : Instr} (hr : c.rsv = false) (h : i.matchesCommand c) :
    decode c = .instr i := by
  rw [decode_of_rsv_clear hr]
  cases i <;> simp only [Instr.matchesCommand] at h <;> simp [decodeOpcode, plain, h]

/-- A command that decodes to no instruction has a reserved encoding (R43). -/
theorem decode_eq_reserved {c : Command} {why : Reserved} (h : decode c = .reserved why) :
    c.rsv = true ∨ c.opc = 0 ∨ 0x17 ≤ c.opc.toNat ∨ (c.arg ≠ 0 ∧ c.opc ≠ 0x10 ∧ c.opc ≠ 0x11) := by
  unfold decode at h
  split at h
  · next hr => exact .inl hr
  refine .inr ?_
  unfold decodeOpcode at h
  split at h
  · next ho => exact .inl (BitVec.eq_of_toNat_eq ho)
  all_goals first
    | (next ho =>
        refine .inr (.inr ⟨fun h0 => ?_, fun h1 => ?_, fun h1 => ?_⟩)
        · simp [plain, h0] at h
        · simp [h1] at ho
        · simp [h1] at ho)
    | (cases h; done)
    | (refine .inr (.inl ?_); by_contra hlt; have := c.opc.isLt; interval_cases c.opc.toNat <;> simp_all)

end Sys2Proof
end

