-- ==== Sys2Proof/Laws/Operands.lean ====
section
/-! SUPPORT. What the operand helpers are, once each: the mask, the pattern of an integer, the sign extension, the
truncated division, the square root, the shift operands. -/

namespace Sys2Proof

theorem WordSize.bits_cases (ws : WordSize) : ws.bits = 8 ∨ ws.bits = 16 ∨ ws.bits = 32 ∨ ws.bits = 64 := by
  cases ws <;> simp [WordSize.bits]

theorem WordSize.bits_pos (ws : WordSize) : 0 < ws.bits := by
  have := ws.bits_cases; omega

theorem WordSize.bits_le (ws : WordSize) : ws.bits ≤ 64 := by
  have := ws.bits_cases; omega

/-- The word size divides the width of the amount bus (spec/42_shift_rotate.md R64). -/
theorem WordSize.bits_dvd (ws : WordSize) : ws.bits ∣ 2 ^ 64 := by
  cases ws <;> decide

namespace Machine

theorem mask_getLsbD (ws : WordSize) (i : Nat) : (mask ws).getLsbD i = decide (i < ws.bits) := by
  have h := ws.bits_le
  rw [mask, BitVec.getLsbD_ofNat, Nat.testBit_two_pow_sub_one]
  by_cases hi : i < ws.bits <;> simp [hi]
  omega

theorem and_mask_getLsbD (ws : WordSize) (p : Word) (i : Nat) :
    (p &&& mask ws).getLsbD i = (decide (i < ws.bits) && p.getLsbD i) := by
  rw [BitVec.getLsbD_and, mask_getLsbD, Bool.and_comm]

theorem toNat_mask (ws : WordSize) : (mask ws).toNat = 2 ^ ws.bits - 1 := by
  cases ws <;> rfl

theorem toNat_and_mask (ws : WordSize) (p : Word) : (p &&& mask ws).toNat = p.toNat % 2 ^ ws.bits := by
  rw [BitVec.toNat_and, toNat_mask, Nat.and_two_pow_sub_one_eq_mod]

theorem toNat_and_mask_lt (ws : WordSize) (p : Word) : (p &&& mask ws).toNat < 2 ^ ws.bits := by
  rw [toNat_and_mask]; exact Nat.mod_lt _ (Nat.two_pow_pos _)

theorem and_mask_and_mask (ws : WordSize) (p : Word) : (p &&& mask ws) &&& mask ws = p &&& mask ws := by
  rw [BitVec.and_assoc, BitVec.and_self]

/-- A pattern with no bit outside the mask is its own masked pattern. -/
theorem and_mask_of_masked {ws : WordSize} {p : Word} (h : p &&& ~~~ mask ws = 0) : p &&& mask ws = p := by
  ext i hi
  have := congrArg (fun q : Word => q.getLsbD i) h
  simp only [← BitVec.getLsbD_eq_getElem] at *
  simp [hi] at this ⊢
  exact this

theorem masked_and_mask (ws : WordSize) (p : Word) : (p &&& mask ws) &&& ~~~ mask ws = 0 := by
  ext i hi
  simp

/-- A pattern below 2^w has no bit outside the mask. -/
theorem and_mask_of_lt {ws : WordSize} {p : Word} (h : p.toNat < 2 ^ ws.bits) : p &&& mask ws = p := by
  apply BitVec.eq_of_toNat_eq
  rw [toNat_and_mask, Nat.mod_eq_of_lt h]

/-- `pat_w(r)` is the integer modulo 2^w (spec/00_scope.md R9). -/
theorem toNat_pat (ws : WordSize) (r : Int) : (pat ws r).toNat = (r % 2 ^ ws.bits).toNat := by
  have h := ws.bits_le
  have hlt : (r % 2 ^ ws.bits).toNat < 2 ^ 64 := by
    have h1 : (0 : Int) < 2 ^ ws.bits := by positivity
    have h2 := Int.emod_lt_of_pos r h1
    have h3 : (2 : Int) ^ ws.bits ≤ 2 ^ 64 := by gcongr; decide
    have h4 := Int.emod_nonneg r h1.ne'
    zify; rw [Int.toNat_of_nonneg h4]; exact h2.trans_le h3
  simp only [pat, BitVec.toNat_setWidth, BitVec.toNat_ofInt, Nat.cast_pow, Nat.cast_ofNat]
  exact Nat.mod_eq_of_lt hlt

theorem pat_eq_and_mask (ws : WordSize) (r : Int) : pat ws r = BitVec.ofInt 64 r &&& mask ws := by
  apply BitVec.eq_of_toNat_eq
  rw [toNat_pat, toNat_and_mask, BitVec.toNat_ofInt]
  have h := pow_dvd_pow (2 : Int) ws.bits_le
  have h1 : (0 : Int) < 2 ^ ws.bits := by positivity
  have h4 := Int.emod_nonneg r (show ((2 ^ 64 : Nat) : Int) ≠ 0 by decide)
  zify
  push_cast at h4 ⊢
  rw [Int.toNat_of_nonneg (Int.emod_nonneg r h1.ne'), Int.toNat_of_nonneg h4]
  exact (Int.emod_emod_of_dvd r h).symm

theorem pat_masked (ws : WordSize) (r : Int) : pat ws r &&& ~~~ mask ws = 0 := by
  rw [pat_eq_and_mask, masked_and_mask]

theorem pat_and_mask (ws : WordSize) (r : Int) : pat ws r &&& mask ws = pat ws r := by
  rw [pat_eq_and_mask, and_mask_and_mask]

theorem pat_toInt (ws : WordSize) (p : Word) : pat ws p.toInt = p &&& mask ws := by
  rw [pat_eq_and_mask, BitVec.ofInt_toInt]

theorem pat_toNat (ws : WordSize) (p : Word) : pat ws (p.toNat : Int) = p &&& mask ws := by
  rw [pat_eq_and_mask]; simp

/-- Sign extension, bit by bit (R10). -/
theorem sext64_getLsbD (ws : WordSize) (p : Word) (i : Nat) (hi : i < 64) :
    (sext64 ws (p &&& mask ws)).getLsbD i = if i < ws.bits then p.getLsbD i else p.getLsbD (ws.bits - 1) := by
  have h0 := ws.bits_pos
  have h1 := ws.bits_le
  have hm := mask_getLsbD ws i
  have hw := and_mask_getLsbD ws p i
  unfold sext64
  rw [and_mask_getLsbD]
  by_cases hb : p.getLsbD (ws.bits - 1) <;> by_cases hlt : i < ws.bits <;>
    simp only [hb, hlt, hi, hm, hw, show ws.bits - 1 < ws.bits by omega, BitVec.getLsbD_or, BitVec.getLsbD_not,
      decide_true, decide_false, Bool.true_and, Bool.false_and, Bool.and_true, Bool.and_false, Bool.not_true,
      Bool.not_false, Bool.or_false, Bool.or_true, if_true, if_false, Bool.false_eq_true]

/-- Sign extension is the one of bit vectors. -/
theorem sext64_eq_signExtend (ws : WordSize) (p : Word) :
    sext64 ws (p &&& mask ws) = (p.setWidth ws.bits).signExtend 64 := by
  have h0 := ws.bits_pos
  ext i hi
  rw [← BitVec.getLsbD_eq_getElem, sext64_getLsbD ws p i hi, ← BitVec.getLsbD_eq_getElem,
    BitVec.getLsbD_signExtend]
  by_cases hlt : i < ws.bits <;>
    simp [hlt, hi, BitVec.msb_eq_getLsbD_last, show ws.bits - 1 < ws.bits by omega]

/-- Sign extension reads the pattern as a two's-complement number of `w` bits (R10, R20). -/
theorem toInt_sext64 (ws : WordSize) (p : Word) :
    (sext64 ws (p &&& mask ws)).toInt = (p.toNat : Int).bmod (2 ^ ws.bits) := by
  rw [sext64_eq_signExtend, BitVec.toInt_signExtend_of_le ws.bits_le, BitVec.toInt_setWidth]

/-- The signed reading of a stored integer is its balanced residue modulo 2^w. -/
theorem toInt_sext64_pat (ws : WordSize) (r : Int) :
    (sext64 ws (pat ws r)).toInt = r.bmod (2 ^ ws.bits) := by
  rw [← pat_and_mask, toInt_sext64, toNat_pat]
  have h1 : (0 : Int) < 2 ^ ws.bits := by positivity
  rw [Int.toNat_of_nonneg (Int.emod_nonneg r h1.ne')]
  have := Int.emod_bmod r (2 ^ ws.bits)
  push_cast at this
  exact this

/-- Truncated division is the division that rounds toward zero (R11). -/
theorem tdiv_eq (x y : Int) : tdiv x y = Int.tdiv x y := by
  rw [tdiv]
  rcases lt_trichotomy x 0 with hx | hx | hx <;> rcases lt_trichotomy y 0 with hy | hy | hy
  all_goals first
    | subst hx; simp
    | subst hy; simp
    | skip
  · obtain ⟨m, rfl⟩ : ∃ m : Nat, x = -m := ⟨x.natAbs, by omega⟩
    obtain ⟨n, rfl⟩ : ∃ n : Nat, y = -n := ⟨y.natAbs, by omega⟩
    simp [Int.sign_eq_neg_one_of_neg hx, Int.sign_eq_neg_one_of_neg hy]
  · obtain ⟨m, rfl⟩ : ∃ m : Nat, x = -m := ⟨x.natAbs, by omega⟩
    obtain ⟨n, rfl⟩ : ∃ n : Nat, y = n := ⟨y.natAbs, by omega⟩
    simp [Int.sign_eq_neg_one_of_neg hx, Int.sign_eq_one_of_pos hy]
  · obtain ⟨m, rfl⟩ : ∃ m : Nat, x = m := ⟨x.natAbs, by omega⟩
    obtain ⟨n, rfl⟩ : ∃ n : Nat, y = -n := ⟨y.natAbs, by omega⟩
    simp [Int.sign_eq_one_of_pos hx, Int.sign_eq_neg_one_of_neg hy]
  · obtain ⟨m, rfl⟩ : ∃ m : Nat, x = m := ⟨x.natAbs, by omega⟩
    obtain ⟨n, rfl⟩ : ∃ n : Nat, y = n := ⟨y.natAbs, by omega⟩
    simp [Int.sign_eq_one_of_pos hx, Int.sign_eq_one_of_pos hy]

/-- The remainder of the truncated division (R11). -/
theorem trem_eq (x y : Int) : trem x y = Int.tmod x y := by
  rw [trem, tdiv_eq, Int.tmod_def]

/-- One pass over the root's bits keeps the root's two bounds. -/
theorem isqrtBits_bounds (n : Nat) : ∀ k r, r * r ≤ n → n < (r + 2 ^ k) * (r + 2 ^ k) →
    isqrtBits k n r * isqrtBits k n r ≤ n ∧ n < (isqrtBits k n r + 1) * (isqrtBits k n r + 1)
  | 0, r, h1, h2 => by simpa [isqrtBits] using ⟨h1, h2⟩
  | k + 1, r, h1, h2 => by
    rw [isqrtBits]
    split
    · next h =>
      exact isqrtBits_bounds n k _ h (by rw [Nat.add_assoc, ← Nat.two_mul, ← Nat.pow_succ']; exact h2)
    · next h => exact isqrtBits_bounds n k r h1 (by omega)

/-- The root is the exact floor root, of every number (R11). -/
theorem isqrtFloor_bounds (n : Nat) :
    isqrtFloor n * isqrtFloor n ≤ n ∧ n < (isqrtFloor n + 1) * (isqrtFloor n + 1) := by
  refine isqrtBits_bounds n _ 0 (by simp) ?_
  have h : n < 2 ^ (n.log2 + 1) := Nat.lt_log2_self
  rw [Nat.zero_add, ← Nat.pow_add]
  exact h.trans_le (Nat.pow_le_pow_right (by decide) (by omega))

theorem shiftAmount_lt (ws : WordSize) (b : Word) : shiftAmount ws b < ws.bits :=
  Nat.mod_lt _ ws.bits_pos

theorem shiftValue_getLsbD (ws : WordSize) (a : Word) (i : Nat) :
    (shiftValue ws a).getLsbD i = (decide (i < ws.bits) && a.getLsbD i) :=
  and_mask_getLsbD ws a i

end Machine
end Sys2Proof
end

