-- ==== Sys2Proof/Laws/State.lean ====
section
/-! SUPPORT. Each named update of `State`, field by field: one lemma per field per update. -/

namespace Sys2Proof.Machine

@[simp] theorem setRawField_raw (s : State) (v : Word) : (setRawField s v).raw = v := rfl
@[simp] theorem setRawField_ws (s : State) (v : Word) : (setRawField s v).ws = s.ws := rfl
@[simp] theorem setRawField_base (s : State) (v : Word) : (setRawField s v).base = s.base := rfl
@[simp] theorem setRawField_status (s : State) (v : Word) : (setRawField s v).status = s.status := rfl
@[simp] theorem setRawField_result (s : State) (v : Word) : (setRawField s v).result = s.result := rfl
@[simp] theorem setRawField_textLen (s : State) (v : Word) : (setRawField s v).textLen = s.textLen := rfl
@[simp] theorem setRawField_text (s : State) (v : Word) : (setRawField s v).text = s.text := rfl
@[simp] theorem setRawField_resetSeen (s : State) (v : Word) : (setRawField s v).resetSeen = s.resetSeen := rfl
@[simp] theorem setRawField_inputs (s : State) (v : Word) : (setRawField s v).inputs = s.inputs := rfl

@[simp] theorem setWsField_raw (s : State) (c : WordSize) : (setWsField s c).raw = s.raw := rfl
@[simp] theorem setWsField_ws (s : State) (c : WordSize) : (setWsField s c).ws = c := rfl
@[simp] theorem setWsField_base (s : State) (c : WordSize) : (setWsField s c).base = s.base := rfl
@[simp] theorem setWsField_status (s : State) (c : WordSize) : (setWsField s c).status = s.status := rfl
@[simp] theorem setWsField_result (s : State) (c : WordSize) : (setWsField s c).result = s.result := rfl
@[simp] theorem setWsField_textLen (s : State) (c : WordSize) : (setWsField s c).textLen = s.textLen := rfl
@[simp] theorem setWsField_text (s : State) (c : WordSize) : (setWsField s c).text = s.text := rfl
@[simp] theorem setWsField_resetSeen (s : State) (c : WordSize) : (setWsField s c).resetSeen = s.resetSeen := rfl
@[simp] theorem setWsField_inputs (s : State) (c : WordSize) : (setWsField s c).inputs = s.inputs := rfl

@[simp] theorem setBaseField_raw (s : State) (c : Base) : (setBaseField s c).raw = s.raw := rfl
@[simp] theorem setBaseField_ws (s : State) (c : Base) : (setBaseField s c).ws = s.ws := rfl
@[simp] theorem setBaseField_base (s : State) (c : Base) : (setBaseField s c).base = c := rfl
@[simp] theorem setBaseField_status (s : State) (c : Base) : (setBaseField s c).status = s.status := rfl
@[simp] theorem setBaseField_result (s : State) (c : Base) : (setBaseField s c).result = s.result := rfl
@[simp] theorem setBaseField_textLen (s : State) (c : Base) : (setBaseField s c).textLen = s.textLen := rfl
@[simp] theorem setBaseField_text (s : State) (c : Base) : (setBaseField s c).text = s.text := rfl
@[simp] theorem setBaseField_resetSeen (s : State) (c : Base) : (setBaseField s c).resetSeen = s.resetSeen := rfl
@[simp] theorem setBaseField_inputs (s : State) (c : Base) : (setBaseField s c).inputs = s.inputs := rfl

@[simp] theorem store_raw (s : State) (r : Int) : (store s r).raw = pat s.ws r := rfl
@[simp] theorem store_ws (s : State) (r : Int) : (store s r).ws = s.ws := rfl
@[simp] theorem store_base (s : State) (r : Int) : (store s r).base = s.base := rfl
@[simp] theorem store_status (s : State) (r : Int) : (store s r).status = s.status := rfl
@[simp] theorem store_result (s : State) (r : Int) : (store s r).result = s.result := rfl
@[simp] theorem store_textLen (s : State) (r : Int) : (store s r).textLen = s.textLen := rfl
@[simp] theorem store_text (s : State) (r : Int) : (store s r).text = s.text := rfl
@[simp] theorem store_resetSeen (s : State) (r : Int) : (store s r).resetSeen = s.resetSeen := rfl
@[simp] theorem store_inputs (s : State) (r : Int) : (store s r).inputs = s.inputs := rfl

@[simp] theorem respond_raw (s : State) (st : Status) (v : Word) (t : List Char) : (respond s st v t).raw = s.raw := rfl
@[simp] theorem respond_ws (s : State) (st : Status) (v : Word) (t : List Char) : (respond s st v t).ws = s.ws := rfl
@[simp] theorem respond_base (s : State) (st : Status) (v : Word) (t : List Char) : (respond s st v t).base = s.base := rfl
@[simp] theorem respond_status (s : State) (st : Status) (v : Word) (t : List Char) : (respond s st v t).status = st := rfl
@[simp] theorem respond_result (s : State) (st : Status) (v : Word) (t : List Char) : (respond s st v t).result = v := rfl
@[simp] theorem respond_textLen (s : State) (st : Status) (v : Word) (t : List Char) : (respond s st v t).textLen = BitVec.ofNat 7 t.length := rfl
@[simp] theorem respond_text (s : State) (st : Status) (v : Word) (t : List Char) : (respond s st v t).text = textPort t := rfl
@[simp] theorem respond_resetSeen (s : State) (st : Status) (v : Word) (t : List Char) : (respond s st v t).resetSeen = s.resetSeen := rfl
@[simp] theorem respond_inputs (s : State) (st : Status) (v : Word) (t : List Char) : (respond s st v t).inputs = s.inputs := rfl

@[simp] theorem answerIllegal_raw (s : State) : (answerIllegal s).raw = s.raw := rfl
@[simp] theorem answerIllegal_ws (s : State) : (answerIllegal s).ws = s.ws := rfl
@[simp] theorem answerIllegal_base (s : State) : (answerIllegal s).base = s.base := rfl
@[simp] theorem answerIllegal_status (s : State) : (answerIllegal s).status = .error .illegalCommand := rfl
@[simp] theorem answerIllegal_result (s : State) : (answerIllegal s).result = 0 := rfl
@[simp] theorem answerIllegal_textLen (s : State) : (answerIllegal s).textLen = 0 := rfl
@[simp] theorem answerIllegal_text (s : State) : (answerIllegal s).text = textPort [] := rfl
@[simp] theorem answerIllegal_resetSeen (s : State) : (answerIllegal s).resetSeen = s.resetSeen := rfl
@[simp] theorem answerIllegal_inputs (s : State) : (answerIllegal s).inputs = s.inputs := rfl

@[simp] theorem assertReset_raw (s : State) : (assertReset s).raw = 0 := rfl
@[simp] theorem assertReset_ws (s : State) : (assertReset s).ws = .qword := rfl
@[simp] theorem assertReset_base (s : State) : (assertReset s).base = .dec := rfl
@[simp] theorem assertReset_status (s : State) : (assertReset s).status = .ok := rfl
@[simp] theorem assertReset_result (s : State) : (assertReset s).result = 0 := rfl
@[simp] theorem assertReset_textLen (s : State) : (assertReset s).textLen = 0 := rfl
@[simp] theorem assertReset_text (s : State) : (assertReset s).text = Vector.replicate 64 0 := rfl
@[simp] theorem assertReset_resetSeen (s : State) : (assertReset s).resetSeen = true := rfl
@[simp] theorem assertReset_inputs (s : State) : (assertReset s).inputs = s.inputs := rfl

@[simp] theorem present_raw (s : State) (x : HostInput) : (present s x).raw = s.raw := rfl
@[simp] theorem present_ws (s : State) (x : HostInput) : (present s x).ws = s.ws := rfl
@[simp] theorem present_base (s : State) (x : HostInput) : (present s x).base = s.base := rfl
@[simp] theorem present_status (s : State) (x : HostInput) : (present s x).status = s.status := rfl
@[simp] theorem present_result (s : State) (x : HostInput) : (present s x).result = s.result := rfl
@[simp] theorem present_textLen (s : State) (x : HostInput) : (present s x).textLen = s.textLen := rfl
@[simp] theorem present_text (s : State) (x : HostInput) : (present s x).text = s.text := rfl
@[simp] theorem present_resetSeen (s : State) (x : HostInput) : (present s x).resetSeen = s.resetSeen := rfl
@[simp] theorem present_inputs (s : State) (x : HostInput) : (present s x).inputs = x :: s.inputs := rfl

end Sys2Proof.Machine
end

