-- ==== Sys2Proof/Laws/Ops.lean ====
section
/-! SUPPORT. What each shared operation can do, once each: the text port, the response, the two readings of the
register, the execution template, the presentation of the next input. -/

namespace Sys2Proof.Machine

/-- A character of the text port (spec/45_rendering.md R84). -/
theorem textPort_getElem (t : List Char) (i : Nat) (hi : i < 64) :
    (textPort t)[i] = (t[i]?.map charCode).getD 0 := by
  simp [textPort]

theorem textPort_nil : textPort [] = Vector.replicate 64 0 := by
  ext i hi
  simp [textPort_getElem]

/-- At and beyond its end a text shows `0x00` (R84). -/
theorem textPort_padded (t : List Char) (i : Nat) (hi : i < 64) (h : t.length ≤ i) : (textPort t)[i] = 0 := by
  rw [textPort_getElem t i hi, List.getElem?_eq_none h]
  rfl

/-- The register's signed reading, as an integer (10_state.md R20). -/
theorem toInt_signedResult (s : State) : (signedResult s).toInt = (s.raw.toNat : Int).bmod (2 ^ s.ws.bits) :=
  toInt_sext64 s.ws s.raw

theorem sval_eq (s : State) : sval s = (s.raw.toNat : Int).bmod (2 ^ s.ws.bits) := toInt_signedResult s

/-- The register's unsigned reading, as a number (R21). -/
theorem uval_eq (s : State) : uval s = s.raw.toNat % 2 ^ s.ws.bits := toNat_and_mask s.ws s.raw

/-- What the execution template can do (30_encoding.md R45): either the rule is done and the response is Ok, or it
raised and the state before the command answers with the error. -/
theorem execute_cases (rule : State → RuleResult) (result : State → Word) (text : State → List Char) (s : State) :
    (∃ t, rule s = .done t ∧ execute rule result text s = respond t .ok (result t) (text t)) ∨
    (∃ k, rule s = .raised k ∧ execute rule result text s = respond s (.error k) 0 []) := by
  unfold execute
  cases h : rule s with
  | done t => exact .inl ⟨t, rfl, by simp⟩
  | raised k => exact .inr ⟨k, rfl, by simp⟩

theorem execute_done {rule : State → RuleResult} {result : State → Word} {text : State → List Char} {s t : State}
    (h : rule s = .done t) : execute rule result text s = respond t .ok (result t) (text t) := by
  simp [execute, h]

theorem execute_raised {rule : State → RuleResult} {result : State → Word} {text : State → List Char} {s : State}
    {k : ErrorKind} (h : rule s = .raised k) : execute rule result text s = respond s (.error k) 0 [] := by
  simp [execute, h]

theorem fetch_nil {s : State} (h : s.inputs = []) : fetch s = none := by
  simp [fetch, h]

theorem fetch_cons {s : State} {x : HostInput} {rest : List HostInput} (h : s.inputs = x :: rest) :
    fetch s = some (x, { s with inputs := rest }) := by
  simp [fetch, h]

/-- What presenting the next input can do. -/
theorem fetch_eq_some {s t : State} {x : HostInput} (h : fetch s = some (x, t)) :
    s.inputs = x :: t.inputs ∧ t = { s with inputs := t.inputs } := by
  unfold fetch at h
  split at h
  · cases h
  · next y rest hs => cases h; exact ⟨hs, rfl⟩

end Sys2Proof.Machine
end

