-- ==== Sys2Proof/Laws/PerInstr.lean ====
section
/-! SUPPORT. What holds of every instruction as syntax, one lemma per constructor: its encoding is a legal command
word (spec/30_encoding.md R42). -/

namespace Sys2Proof.Laws.EncodesLegally

/-- The encoding of an instruction is a legal command word. -/
def Statement (i : Instr) : Prop := (encode i).legal = true

theorem add (a b : Word) : Statement (.add a b) :=
  (Command.legal_mk _ _ _).trans rfl
theorem subtract (a b : Word) : Statement (.subtract a b) :=
  (Command.legal_mk _ _ _).trans rfl
theorem multiply (a b : Word) : Statement (.multiply a b) :=
  (Command.legal_mk _ _ _).trans rfl
theorem divide (a b : Word) : Statement (.divide a b) :=
  (Command.legal_mk _ _ _).trans rfl
theorem mod (a b : Word) : Statement (.mod a b) :=
  (Command.legal_mk _ _ _).trans rfl
theorem bitAnd (a b : Word) : Statement (.bitAnd a b) :=
  (Command.legal_mk _ _ _).trans rfl
theorem bitOr (a b : Word) : Statement (.bitOr a b) :=
  (Command.legal_mk _ _ _).trans rfl
theorem bitXor (a b : Word) : Statement (.bitXor a b) :=
  (Command.legal_mk _ _ _).trans rfl
theorem bitNot (a : Word) : Statement (.bitNot a) :=
  (Command.legal_mk _ _ _).trans rfl
theorem shl (a b : Word) : Statement (.shl a b) :=
  (Command.legal_mk _ _ _).trans rfl
theorem shr (a b : Word) : Statement (.shr a b) :=
  (Command.legal_mk _ _ _).trans rfl
theorem rol (a b : Word) : Statement (.rol a b) :=
  (Command.legal_mk _ _ _).trans rfl
theorem ror (a b : Word) : Statement (.ror a b) :=
  (Command.legal_mk _ _ _).trans rfl
theorem isqrt (a : Word) : Statement (.isqrt a) :=
  (Command.legal_mk _ _ _).trans rfl
theorem reciprocal (a : Word) : Statement (.reciprocal a) :=
  (Command.legal_mk _ _ _).trans rfl
theorem setBase (r : Base) : Statement (.setBase r) := by
  cases r <;> rfl
theorem setWordSize (w : WordSize) : Statement (.setWordSize w) := by
  cases w <;> rfl
theorem setValue (a : Word) : Statement (.setValue a) :=
  (Command.legal_mk _ _ _).trans rfl
theorem setRaw (a : Word) : Statement (.setRaw a) :=
  (Command.legal_mk _ _ _).trans rfl
theorem getValue : Statement .getValue := rfl
theorem getRaw : Statement .getRaw := rfl
theorem display : Statement .display := rfl

end Sys2Proof.Laws.EncodesLegally
end

