-- ==== Sys2Proof/Laws/Rendering.lean ====
section
/-! SUPPORT. What the digit loop and the rendering are, once: the digits of the library's `Nat.digits`, most
significant first. -/

namespace Sys2Proof.Machine

/-- With fuel enough, the loop writes the digits of `n` before `acc` (spec/45_rendering.md R80). -/
theorem digitsLoop_eq {radix : Nat} (hr : 1 < radix) : ∀ (fuel n : Nat) (acc : List Char), n < radix ^ fuel →
    digitsLoop fuel n radix acc = (Nat.digits radix n).reverse.map digitChar ++ acc
  | 0, n, acc, h => by
    have : n = 0 := by simpa using h
    subst this
    simp [digitsLoop]
  | fuel + 1, n, acc, h => by
    rw [digitsLoop]
    by_cases h0 : n = 0
    · simp [h0]
    · have hlt : n / radix < radix ^ fuel := by
        rw [Nat.div_lt_iff_lt_mul (by omega), ← Nat.pow_succ]
        exact h
      rw [if_neg h0, digitsLoop_eq hr fuel _ _ hlt, Nat.digits_def' hr (Nat.pos_of_ne_zero h0)]
      simp

theorem lt_radix_pow_log2 {radix : Nat} (hr : 1 < radix) (n : Nat) : n < radix ^ (n.log2 + 1) :=
  Nat.lt_log2_self.trans_le (Nat.pow_le_pow_left hr _)

/-- The text of a nonzero number is its digits, most significant first (R80). -/
theorem digits_eq {radix n : Nat} (hr : 1 < radix) (hn : n ≠ 0) :
    digits n radix = (Nat.digits radix n).reverse.map digitChar := by
  rw [digits, if_neg hn, digitsLoop_eq hr _ _ _ (lt_radix_pow_log2 hr n), List.append_nil]

theorem digits_zero (radix : Nat) : digits 0 radix = ['0'] := rfl

/-- A text has a digit more than the power of the radix that its number reaches. -/
theorem length_digits_le {radix n k : Nat} (hr : 1 < radix) (hk : 0 < k) (h : n < radix ^ k) :
    (digits n radix).length ≤ k := by
  by_cases hn : n = 0
  · subst hn
    exact hk
  · rw [digits_eq hr hn]
    simpa using (Nat.digits_length_le_iff hr n).2 h

theorem digits_ne_nil {radix n : Nat} (hr : 1 < radix) : digits n radix ≠ [] := by
  by_cases hn : n = 0
  · subst hn
    simp [digits_zero]
  · rw [digits_eq hr hn]
    simpa [Nat.digits_eq_nil_iff_eq_zero] using hn

end Sys2Proof.Machine
end

