-- ==== Sys2Proof/Laws/Step.lean ====
section
/-! SUPPORT. What each instruction and one step can do, once each. -/

namespace Sys2Proof.Machine

/-- The rule of a command: what it does to the state, or which error it raises (spec/40_arithmetic.md to
45_rendering.md). The three functions say of `exec` what the provers need without unfolding a meaning. -/
def ruleOf (i : Instr) (s : State) : RuleResult :=
  match i with
  | .add a b => .done (store s (s64 a + s64 b))
  | .subtract a b => .done (store s (s64 a - s64 b))
  | .multiply a b => .done (store s (s64 a * s64 b))
  | .divide a b => divideRule (s64 a) (s64 b) s
  | .mod a b => modRule (s64 a) (s64 b) s
  | .bitAnd a b => .done (setRawField s ((a &&& b) &&& mask s.ws))
  | .bitOr a b => .done (setRawField s ((a ||| b) &&& mask s.ws))
  | .bitXor a b => .done (setRawField s ((a ^^^ b) &&& mask s.ws))
  | .bitNot a => .done (setRawField s ((~~~ a) &&& mask s.ws))
  | .shl a b => .done (setRawField s (shlPattern s.ws (shiftValue s.ws a) (shiftAmount s.ws b)))
  | .shr a b => .done (setRawField s (shrPattern (shiftValue s.ws a) (shiftAmount s.ws b)))
  | .rol a b => .done (setRawField s (rolPattern s.ws (shiftValue s.ws a) (shiftAmount s.ws b)))
  | .ror a b => .done (setRawField s (rorPattern s.ws (shiftValue s.ws a) (shiftAmount s.ws b)))
  | .isqrt a => isqrtRule (s64 a) s
  | .reciprocal a => reciprocalRule (s64 a) s
  | .setBase r => .done (setBaseField s r)
  | .setWordSize w => setWordSizeRule w s
  | .setValue a => .done (store s (s64 a))
  | .setRaw a => .done (store s (u64 a))
  | .getValue => .done s
  | .getRaw => .done s
  | .display => .done s

/-- The RESULT of a command that completes (30_encoding.md R46). -/
def resultOf (i : Instr) (s : State) : Word :=
  match i with
  | .getRaw => unsignedResult s
  | _ => signedResult s

/-- The text of a command that completes (R46). -/
def textOf (i : Instr) (s : State) : List Char :=
  match i with
  | .display => render s
  | _ => []

/-- Every instruction is the execution template over its rule (R45). -/
theorem exec_eq (i : Instr) (s : State) :
    exec i s = .next (execute (ruleOf i) (resultOf i) (textOf i) s) := by
  cases i <;> rfl

/-- What an instruction can do: it always goes on, and either completes or answers with an error. -/
theorem exec_cases {i : Instr} {s t : State} (h : exec i s = .next t) :
    (∃ u, ruleOf i s = .done u ∧ t = respond u .ok (resultOf i u) (textOf i u)) ∨
    (∃ k, ruleOf i s = .raised k ∧ t = respond s (.error k) 0 []) := by
  rw [exec_eq] at h
  cases h
  exact execute_cases _ _ _ s

theorem step_wait {s : State} (h : s.inputs = []) : step s = .next s := by
  simp [step, fetch_nil h]

theorem step_rst {s : State} {rest : List HostInput} (h : s.inputs = .rst :: rest) :
    step s = .next (assertReset { s with inputs := rest }) := by
  simp [step, fetch_cons h]

theorem step_instr {s : State} {c : Command} {rest : List HostInput} {i : Instr}
    (h : s.inputs = .command c :: rest) (hr : s.resetSeen = true) (hd : decode c = .instr i) :
    step s = exec i { s with inputs := rest } := by
  simp [step, fetch_cons h, hr, hd]

theorem step_reserved {s : State} {c : Command} {rest : List HostInput} {why : Reserved}
    (h : s.inputs = .command c :: rest) (hr : s.resetSeen = true) (hd : decode c = .reserved why) :
    step s = .next (answerIllegal { s with inputs := rest }) := by
  simp [step, fetch_cons h, hr, hd]

theorem step_unreset {s : State} {c : Command} {rest : List HostInput}
    (h : s.inputs = .command c :: rest) (hr : s.resetSeen = false) :
    step s = .refused .commandBeforeReset := by
  simp [step, fetch_cons h, hr]

/-- What one step that goes on can do: wait, reset, execute a decoded instruction, or answer a reserved word. -/
theorem step_cases {s t : State} (h : step s = .next t) :
    (s.inputs = [] ∧ t = s) ∨
    (∃ rest, s.inputs = .rst :: rest ∧ t = assertReset { s with inputs := rest }) ∨
    (∃ c rest i, s.inputs = .command c :: rest ∧ s.resetSeen = true ∧ decode c = .instr i ∧
      exec i { s with inputs := rest } = .next t) ∨
    (∃ c rest why, s.inputs = .command c :: rest ∧ s.resetSeen = true ∧ decode c = .reserved why ∧
      t = answerIllegal { s with inputs := rest }) := by
  rcases hs : s.inputs with _ | ⟨_ | _, rest⟩
  · rw [step_wait hs] at h
    cases h
    exact .inl ⟨rfl, rfl⟩
  · next c =>
    by_cases hr : s.resetSeen = true
    swap
    · rw [step_unreset hs (by simpa using hr)] at h
      cases h
    · rcases hd : decode c with i | why
      · rw [step_instr hs hr hd] at h
        exact .inr (.inr (.inl ⟨c, rest, i, rfl, hr, hd, h⟩))
      · rw [step_reserved hs hr hd] at h
        cases h
        exact .inr (.inr (.inr ⟨c, rest, why, rfl, hr, hd, rfl⟩))
  · rw [step_rst hs] at h
    cases h
    exact .inr (.inl ⟨rest, rfl, rfl⟩)

theorem runSteps_zero (s : State) : runSteps 0 s = .next s := rfl

/-- A run goes on from the state that its first step answers. -/
theorem runSteps_succ_of_next {s t : State} (h : step s = .next t) (n : Nat) :
    runSteps (n + 1) s = runSteps n t := by
  simp only [runSteps, Host.Core.run, Sys2Proof.core, h]

/-- A run whose first step does not go on ends in no state. -/
theorem step_of_runSteps_succ {s t : State} {n : Nat} (h : runSteps (n + 1) s = .next t) :
    ∃ u, step s = .next u ∧ runSteps n u = .next t := by
  cases hs : step s with
  | next u => exact ⟨u, rfl, (runSteps_succ_of_next hs n).symm.trans h⟩
  | fault r => simp [runSteps, Host.Core.run, Sys2Proof.core, hs] at h
  | refused r => simp [runSteps, Host.Core.run, Sys2Proof.core, hs] at h

end Sys2Proof.Machine
end

