-- ==== Sys2Proof/Tests/Slice0.lean ====
section
/-! SUPPORT. Tests: the smoke test of the legality checks, the decoding of every instruction from a word written
out bit by bit, vectors of spec/95_test_vectors.md (their names stand in the comments), and a witness for every
statement that has hypotheses. -/

namespace Sys2Proof.Tests
open Sys2Proof.Machine

/-- A state after a reset, at a word size, a radix and a pattern. -/
def machineAt (ws : WordSize) (base : Base) (raw : Word) : State :=
  { State.reset with ws := ws, base := base, raw := raw }

/-- A state with inputs pending. -/
def given (s : State) (inputs : List HostInput) : State := { s with inputs := inputs }

/-- What an outcome shows, when it goes on: STATUS, RESULT and `raw`. -/
def shown (o : Host.Outcome State Fault Refusal) : Option (BitVec 3 × Word × Word) :=
  match o with
  | .next t => some (statusO t, t.result, t.raw)
  | .fault _ => none
  | .refused _ => none

/-- The text of an outcome that goes on, as character codes. -/
def shownText (o : Host.Outcome State Fault Refusal) : Option (List Byte) :=
  match o with
  | .next t => some (t.text.toList.take t.textLen.toNat)
  | .fault _ => none
  | .refused _ => none

/-- One instruction on the state of the vectors VA, VB, VS and VM: `raw` = 0x5A, DEC. -/
def ran (ws : WordSize) (i : Instr) : Option (BitVec 3 × Word × Word) := shown (exec i (machineAt ws .dec 0x5A))

/-! The three checks of R42 each refuse an ill-formed word, and accept a well-formed one. -/

theorem test_reserved_bit_is_checked :
    (Command.mk 0b10000001 5 3).reservedBitClear = false ∧ (Command.mk 0b10000001 5 3).legal = false ∧
      (Command.mk 0b00000001 5 3).legal = true := by decide

theorem test_opcode_is_checked :
    (Command.mk 0b00000000 0 0).opcodeAssigned = false ∧ (Command.mk 0b00000000 0 0).legal = false ∧
      (Command.mk 0b00010111 0 0).opcodeAssigned = false ∧ (Command.mk 0b00010111 0 0).legal = false ∧
      (Command.mk 0b00010110 0 0).legal = true := by decide

theorem test_argument_is_checked :
    (Command.mk 0b00100001 5 3).argumentAllowed = false ∧ (Command.mk 0b00100001 5 3).legal = false ∧
      (Command.mk 0b00110001 0 0).legal = true := by decide

/-! Decoding, each word written out as RSV, ARG, OPC (R39, R40, R44). -/

theorem test_decode_arithmetic (a b : Word) :
    decode ⟨0b00000001, a, b⟩ = .instr (.add a b) ∧ decode ⟨0b00000010, a, b⟩ = .instr (.subtract a b) ∧
      decode ⟨0b00000011, a, b⟩ = .instr (.multiply a b) ∧ decode ⟨0b00000100, a, b⟩ = .instr (.divide a b) ∧
      decode ⟨0b00000101, a, b⟩ = .instr (.mod a b) := by simp [decode, decodeOpcode, plain]

theorem test_decode_bitwise (a b : Word) :
    decode ⟨0b00000110, a, b⟩ = .instr (.bitAnd a b) ∧ decode ⟨0b00000111, a, b⟩ = .instr (.bitOr a b) ∧
      decode ⟨0b00001000, a, b⟩ = .instr (.bitXor a b) ∧ decode ⟨0b00001001, a, b⟩ = .instr (.bitNot a) := by
  simp [decode, decodeOpcode, plain]

theorem test_decode_shift_rotate (a b : Word) :
    decode ⟨0b00001010, a, b⟩ = .instr (.shl a b) ∧ decode ⟨0b00001011, a, b⟩ = .instr (.shr a b) ∧
      decode ⟨0b00001100, a, b⟩ = .instr (.rol a b) ∧ decode ⟨0b00001101, a, b⟩ = .instr (.ror a b) := by
  simp [decode, decodeOpcode, plain]

theorem test_decode_elementary_math (a b : Word) :
    decode ⟨0b00001110, a, b⟩ = .instr (.isqrt a) ∧ decode ⟨0b00001111, a, b⟩ = .instr (.reciprocal a) := by
  simp [decode, decodeOpcode, plain]

theorem test_decode_set_base (a b : Word) :
    decode ⟨0b00010000, a, b⟩ = .instr (.setBase .dec) ∧ decode ⟨0b00110000, a, b⟩ = .instr (.setBase .bin) ∧
      decode ⟨0b01010000, a, b⟩ = .instr (.setBase .oct) ∧ decode ⟨0b01110000, a, b⟩ = .instr (.setBase .hex) := by
  simp [decode, decodeOpcode, Base.ofCode]

theorem test_decode_set_word_size (a b : Word) :
    decode ⟨0b00010001, a, b⟩ = .instr (.setWordSize .byte) ∧
      decode ⟨0b00110001, a, b⟩ = .instr (.setWordSize .word) ∧
      decode ⟨0b01010001, a, b⟩ = .instr (.setWordSize .dword) ∧
      decode ⟨0b01110001, a, b⟩ = .instr (.setWordSize .qword) := by
  simp [decode, decodeOpcode, WordSize.ofCode]

theorem test_decode_load_read_render (a b : Word) :
    decode ⟨0b00010010, a, b⟩ = .instr (.setValue a) ∧ decode ⟨0b00010011, a, b⟩ = .instr (.setRaw a) ∧
      decode ⟨0b00010100, a, b⟩ = .instr .getValue ∧ decode ⟨0b00010101, a, b⟩ = .instr .getRaw ∧
      decode ⟨0b00010110, a, b⟩ = .instr .display := by simp [decode, decodeOpcode, plain]

/-- The reserved encodings by name (R43; VE1, VE4 to VE9, VE12, VE13). -/
theorem test_decode_reserved :
    decode ⟨0x00, 0, 0⟩ = .reserved .opcodeZero ∧ decode ⟨0x20, 0, 0⟩ = .reserved .opcodeZero ∧
      decode ⟨0x17, 0, 0⟩ = .reserved .opcodeUnassigned ∧ decode ⟨0x1F, 0, 0⟩ = .reserved .opcodeUnassigned ∧
      decode ⟨0x21, 5, 3⟩ = .reserved .argumentNotZero ∧ decode ⟨0x36, 0, 0⟩ = .reserved .argumentNotZero ∧
      decode ⟨0x81, 5, 3⟩ = .reserved .reservedBitSet ∧ decode ⟨0xF1, 0, 0⟩ = .reserved .reservedBitSet ∧
      decode ⟨0xFF, 0, 0⟩ = .reserved .reservedBitSet := by decide

/-! The instructions: at most two vectors each, `(STATUS, RESULT, raw after)`. -/

/-- VA1, VA7. -/
theorem test_add :
    ran .byte (.add 127 1) = some (0, 0xFFFFFFFFFFFFFF80, 0x80) ∧
      ran .byte (.add 300 0) = some (0, 0x2C, 0x2C) := by decide +kernel

/-- VA9, VA11. -/
theorem test_subtract :
    ran .byte (.subtract (-128) 1) = some (0, 0x7F, 0x7F) ∧
      ran .dword (.subtract 0 0x80000000) = some (0, 0xFFFFFFFF80000000, 0x80000000) := by decide +kernel

/-- VA14, VA18. -/
theorem test_multiply :
    ran .byte (.multiply 15 17) = some (0, 0xFFFFFFFFFFFFFFFF, 0xFF) ∧
      ran .qword (.multiply 0x8000000000000000 (-1)) = some (0, 0x8000000000000000, 0x8000000000000000) := by
  decide +kernel

/-- VA20, VA23. -/
theorem test_divide :
    ran .qword (.divide (-7) 2) = some (0, 0xFFFFFFFFFFFFFFFD, 0xFFFFFFFFFFFFFFFD) ∧
      ran .byte (.divide (-128) (-1)) = some (0, 0xFFFFFFFFFFFFFF80, 0x80) := by decide +kernel

/-- VA26, VA28: a divisor is zero or not before any reduction to the word size. -/
theorem test_divide_by_zero :
    ran .byte (.divide 10 256) = some (0, 0, 0) ∧ ran .qword (.divide 0 0) = some (1, 0, 0x5A) := by decide +kernel

/-- VA29, VA30, VA32. -/
theorem test_mod :
    ran .qword (.mod (-10) 3) = some (0, 0xFFFFFFFFFFFFFFFF, 0xFFFFFFFFFFFFFFFF) ∧
      ran .qword (.mod 10 (-3)) = some (0, 1, 1) ∧
      ran .qword (.mod 0x8000000000000000 (-1)) = some (0, 0, 0) := by decide +kernel

/-- VA33, VA34. -/
theorem test_mod_by_zero :
    ran .byte (.mod 300 7) = some (0, 6, 6) ∧ ran .qword (.mod 7 0) = some (1, 0, 0x5A) := by decide +kernel

/-- VB1, VB4, VB5. -/
theorem test_and_or_xor :
    ran .byte (.bitAnd 240 60) = some (0, 0x30, 0x30) ∧
      ran .byte (.bitOr (-128) 1) = some (0, 0xFFFFFFFFFFFFFF81, 0x81) ∧
      ran .byte (.bitXor 255 15) = some (0, 0xFFFFFFFFFFFFFFF0, 0xF0) := by decide +kernel

/-- VB8, VB10. -/
theorem test_bit_not :
    ran .word (.bitNot 255) = some (0, 0xFFFFFFFFFFFFFF00, 0xFF00) ∧ ran .byte (.bitNot 511) = some (0, 0, 0) := by
  decide +kernel

/-- VS5, VS3, VS8. -/
theorem test_shl :
    ran .word (.shl 0xABCD 4) = some (0, 0xFFFFFFFFFFFFBCD0, 0xBCD0) ∧ ran .byte (.shl 1 8) = some (0, 1, 1) ∧
      ran .byte (.shl 1 (-1)) = some (0, 0xFFFFFFFFFFFFFF80, 0x80) := by decide +kernel

/-- VS11, VS13. -/
theorem test_shr :
    ran .byte (.shr (-1) 1) = some (0, 0x7F, 0x7F) ∧
      ran .byte (.shr 128 8) = some (0, 0xFFFFFFFFFFFFFF80, 0x80) := by decide +kernel

/-- VS20, VS22. -/
theorem test_rol :
    ran .word (.rol 0x1234 4) = some (0, 0x2341, 0x2341) ∧
      ran .qword (.rol 0x8000000000000001 64) = some (0, 0x8000000000000001, 0x8000000000000001) := by decide +kernel

/-- VS27, VS28. -/
theorem test_ror :
    ran .word (.ror 0x1234 4) = some (0, 0x4123, 0x4123) ∧
      ran .qword (.ror 1 1) = some (0, 0x8000000000000000, 0x8000000000000000) := by decide +kernel

/-- VM6, VM9: the largest operand. -/
theorem test_isqrt_largest :
    ran .qword (.isqrt 0x7FFFFFFFFFFFFFFF) = some (0, 0xB504F333, 0xB504F333) ∧
      ran .dword (.isqrt 0x7FFFFFFFFFFFFFFF) = some (0, 0xFFFFFFFFB504F333, 0xB504F333) := by decide +kernel

/-- VM3, VM4, VM7, VM10. -/
theorem test_isqrt :
    ran .qword (.isqrt 15) = some (0, 3, 3) ∧ ran .qword (.isqrt 16) = some (0, 4, 4) ∧
      ran .byte (.isqrt 0xFFFF) = some (0, 0xFFFFFFFFFFFFFFFF, 0xFF) ∧
      ran .qword (.isqrt (-1)) = some (2, 0, 0x5A) := by decide +kernel

/-- VM13, VM15, VM18, VM20. -/
theorem test_reciprocal :
    ran .qword (.reciprocal (-1)) = some (0, 0xFFFFFFFFFFFFFFFF, 0xFFFFFFFFFFFFFFFF) ∧
      ran .qword (.reciprocal 2) = some (3, 0, 0x5A) ∧ ran .byte (.reciprocal 257) = some (3, 0, 0x5A) ∧
      ran .qword (.reciprocal 0) = some (1, 0, 0x5A) := by decide +kernel

/-- VC1: the radix only. -/
theorem test_set_base :
    exec (.setBase .hex) (machineAt .qword .dec 0x5A) =
      .next { machineAt .qword .hex 0x5A with result := 0x5A } := rfl

/-- VC3, VC4. -/
theorem test_set_word_size :
    shown (exec (.setWordSize .byte) (machineAt .qword .dec 0x1FF)) = some (0, 0xFFFFFFFFFFFFFFFF, 0xFF) ∧
      shown (exec (.setWordSize .qword) (machineAt .byte .dec 0xFF)) = some (0, 0xFF, 0xFF) := by decide +kernel

/-- VC10, VT6. -/
theorem test_set_value :
    ran .byte (.setValue 0x1234) = some (0, 0x34, 0x34) ∧
      exec (.setValue 0) (machineAt .byte .hex 0x1FF) = .next (machineAt .byte .hex 0) :=
  ⟨by decide +kernel, rfl⟩

/-- VC11, VC12. -/
theorem test_set_raw :
    ran .word (.setRaw 0xFFFFFFFFFFFFFFFF) = some (0, 0xFFFFFFFFFFFFFFFF, 0xFFFF) ∧
      ran .byte (.setRaw 0x80) = some (0, 0xFFFFFFFFFFFFFF80, 0x80) := by decide +kernel

/-- VC14, VC15, VC16. -/
theorem test_get_value_and_get_raw :
    shown (exec .getValue (machineAt .byte .dec 0x80)) = some (0, 0xFFFFFFFFFFFFFF80, 0x80) ∧
      shown (exec .getValue (machineAt .word .dec 0x80)) = some (0, 0x80, 0x80) ∧
      shown (exec .getRaw (machineAt .byte .dec 0x80)) = some (0, 0x80, 0x80) := by decide +kernel

/-- VC19 `"90"`, VC20 `"5A"`, VT3 `"0"`. -/
theorem test_display :
    shownText (exec .display (machineAt .qword .dec 0x5A)) = some [0x39, 0x30] ∧
      shownText (exec .display (machineAt .qword .hex 0x5A)) = some [0x35, 0x41] ∧
      shownText (exec .display State.reset) = some [0x30] := by decide +kernel

/-- VR5 and VR11: the most negative values in DEC, and VR4 in OCT. -/
theorem test_render :
    render (machineAt .byte .dec 0x80) = ['-', '1', '2', '8'] ∧
      render (machineAt .qword .dec 0x8000000000000000) =
        ['-', '9', '2', '2', '3', '3', '7', '2', '0', '3', '6', '8', '5', '4', '7', '7', '5', '8', '0', '8'] ∧
      render (machineAt .byte .oct 0xFF) = ['3', '7', '7'] := by decide +kernel

/-- VR13 in BIN: the longest text fills the port. -/
theorem test_longest_text :
    shownText (exec .display (machineAt .qword .bin 0xFFFFFFFFFFFFFFFF)) = some (List.replicate 64 0x31) := by
  decide +kernel

/-! One step of the machine. -/

/-- W17, VT1: reset from a state with an error held. -/
theorem test_step_reset :
    step { machineAt .byte .hex 0xFF with status := .error .divisionByZero, inputs := [.rst] } = .next State.reset :=
  rfl

/-- VE10: an illegal `divide` by zero reports the illegality; VT5: the next command runs. -/
theorem test_step_illegal :
    (shown (step (given (machineAt .qword .dec 0x5A) [.command ⟨0x84, 5, 0⟩])) = some (4, 0, 0x5A)) ∧
      shown (step { machineAt .qword .dec 0x5A with status := .error .illegalCommand,
                                                    inputs := [.command ⟨0x14, 0, 0⟩] }) = some (0, 0x5A, 0x5A) := by
  decide +kernel

/-- VE17, VE18: buses that are not read. -/
theorem test_step_ignores_unread_buses :
    shown (step (given (machineAt .qword .dec 0x5A) [.command ⟨0x09, 0, 0x1234⟩])) =
        some (0, 0xFFFFFFFFFFFFFFFF, 0xFFFFFFFFFFFFFFFF) ∧
      shown (step (given (machineAt .qword .dec 0x5A) [.command ⟨0x14, 0x1234, 0x5678⟩])) =
        some (0, 0x5A, 0x5A) := by decide +kernel

/-- A word placed for the step runs next, with its buses in the order of notes/assumptions/5.md. -/
theorem test_step_fetch_word :
    decodeTableWord 136 (0x01 + 5 * 2 ^ 8 + 3 * 2 ^ 72) = some (.add 5 3) ∧
      shown (step (State.reset.withFetchWord 136 (0x01 + 5 * 2 ^ 8 + 3 * 2 ^ 72))) = some (0, 8, 8) ∧
      decodeTableWord 8 0x70 = some (.setBase .hex) ∧ decodeTableWord 8 0x80 = none := by decide +kernel

/-! The assembler (R49), on lines of the programs of Part 3 and on errors. -/

theorem test_assemble_lines :
    assembleLine "rol 0x1234, 20 ; P4".toList = some ⟨0x0C, 0x1234, 0x14⟩ ∧
      assembleLine "divide -128, 0".toList = some ⟨0x04, 0xFFFFFFFFFFFFFF80, 0⟩ ∧
      assembleLine "setBase HEX".toList = some ⟨0x70, 0, 0⟩ ∧
      assembleLine "setWordSize WORD".toList = some ⟨0x31, 0, 0⟩ ∧
      assembleLine "setWordSize 16".toList = some ⟨0x31, 0, 0⟩ ∧
      assembleLine ".cmd 0x81".toList = some ⟨0x81, 0, 0⟩ ∧
      assembleLine "bitNot 0".toList = some ⟨0x09, 0, 0⟩ := by
  refine ⟨?_, ?_, ?_, ?_, ?_, ?_, ?_⟩ <;> decide +kernel

theorem test_assembly_errors :
    assembleLine "add 1".toList = none ∧ assembleLine "isqrt 1, 2".toList = none ∧
      assembleLine "setBase hex".toList = none ∧ assembleLine "setWordSize 24".toList = none ∧
      assembleLine "setValue 18446744073709551616".toList = none ∧
      assembleLine "setValue -9223372036854775809".toList = none ∧
      assembleLine "frob 1, 2".toList = none := by
  refine ⟨?_, ?_, ?_, ?_, ?_, ?_, ?_⟩ <;> decide +kernel

theorem test_assembled_form :
    assembledForm ⟨0x0C, 0x1234, 0x14⟩ = "CMD=0x0C A=0x0000000000001234 B=0x0000000000000014".toList := by
  decide +kernel

/-! Witnesses: states and operands that meet the hypotheses of each statement of
Sys2Proof/Certificates/Slice0/Obligations.lean, clause by clause where it has several. A statement named in none has
no hypotheses. -/

/-- The pending command `add 5, 3`, after a reset. -/
def pendingAdd : State := given (machineAt .byte .hex 0xFF) [.command ⟨0x01, 5, 3⟩]

theorem witness_RstGivesTheResetState : (given (machineAt .byte .hex 0xFF) [.rst]).inputs = .rst :: [] := rfl

theorem witness_CommandBeforeFirstResetIsRefused :
    ({ pendingAdd with resetSeen := false }).inputs = .command ⟨0x01, 5, 3⟩ :: [] ∧
      ({ pendingAdd with resetSeen := false }).resetSeen = false := ⟨rfl, rfl⟩

theorem witness_BlockWaitsWithoutInput : (machineAt .byte .hex 0xFF).inputs = [] := rfl

theorem witness_StepRunsTheDecodedInstruction :
    pendingAdd.inputs = .command ⟨0x01, 5, 3⟩ :: [] ∧ pendingAdd.resetSeen = true ∧
      decode ⟨0x01, 5, 3⟩ = .instr (.add 5 3) := ⟨rfl, rfl, by decide⟩

theorem witness_FetchWordIsTheNextInstruction :
    decodeTableWord 8 0x01 = some (.add 0 0) ∧ decodeTableWord 8 0x16 = some .display := by decide +kernel

theorem witness_IllegalWordIsAnswered :
    (given State.reset [.command ⟨0x17, 5, 3⟩]).inputs = .command ⟨0x17, 5, 3⟩ :: [] ∧
      (given State.reset [.command ⟨0x17, 5, 3⟩]).resetSeen = true ∧ (Command.mk 0x17 5 3).legal = false :=
  ⟨rfl, rfl, by decide⟩

/-- One word of each kind of R43 at the ends of its range, and the legal neighbours. -/
theorem witness_ReservedEncodingsAreTheIllegalOnes :
    (Command.mk 0x00 0 0).legal = false ∧ (Command.mk 0x17 0 0).legal = false ∧
      (Command.mk 0x1F 0 0).legal = false ∧ (Command.mk 0x81 0 0).legal = false ∧
      (Command.mk 0x21 0 0).legal = false ∧ (Command.mk 0x01 0 0).legal = true ∧
      (Command.mk 0x16 0 0).legal = true ∧ (Command.mk 0x71 0 0).legal = true := by decide

/-- A bus that is read, and two that are not. -/
theorem witness_DecodeAndEncodeAgree :
    decode ⟨0x09, 7, 9⟩ = .instr (.bitNot 7) ∧ (encode (.bitNot 7)).a = 7 ∧
      decode ⟨0x14, 7, 9⟩ = .instr .getValue := by decide

theorem witness_EveryStepKeepsTheInvariant :
    Inv (given (machineAt .byte .hex 0xFF) [.command ⟨0x16, 0, 0⟩]) ∧
      ∃ t, step (given (machineAt .byte .hex 0xFF) [.command ⟨0x16, 0, 0⟩]) = .next t ∧ t.textLen = 2 :=
  ⟨by decide +kernel, _, rfl, by decide +kernel⟩

/-- Both clauses: the divisor 0, and the divisors next to it. -/
theorem witness_DivideTruncatesTowardZero :
    (0 : Word) = 0 ∧ (1 : Word) ≠ 0 ∧ (-1 : Word) ≠ 0 := by decide

theorem witness_ModFollowsTheDividend :
    (0 : Word) = 0 ∧ (1 : Word) ≠ 0 ∧ (-1 : Word) ≠ 0 := by decide

/-- Both clauses at their ends: -2^63 and -1, 0 and 2^63 - 1. -/
theorem witness_IsqrtStoresTheExactFloorRoot :
    (0x8000000000000000 : Word).toInt < 0 ∧ (-1 : Word).toInt < 0 ∧ 0 ≤ (0 : Word).toInt ∧
      0 ≤ (0x7FFFFFFFFFFFFFFF : Word).toInt := by decide

/-- The three clauses: 0; 2, -2 and -2^63; 1 and -1. -/
theorem witness_ReciprocalIsExactOrFails :
    (0 : Word).toInt = 0 ∧ ((2 : Word).toInt ≠ 0 ∧ (2 : Word).toInt ≠ 1 ∧ (2 : Word).toInt ≠ -1) ∧
      ((-2 : Word).toInt ≠ 0 ∧ (-2 : Word).toInt ≠ 1 ∧ (-2 : Word).toInt ≠ -1) ∧
      ((0x8000000000000000 : Word).toInt ≠ 0 ∧ (0x8000000000000000 : Word).toInt ≠ 1 ∧
        (0x8000000000000000 : Word).toInt ≠ -1) ∧
      (1 : Word).toInt = 1 ∧ (-1 : Word).toInt = -1 := by decide

/-- A masked register whose two readings differ, one whose readings agree, and the widest one. -/
theorem witness_GetRawReadsTheUnsignedPattern :
    (Masked (machineAt .byte .dec 0x80) ∧ ∃ u, exec .getValue (machineAt .byte .dec 0x80) = .next u ∧
        u.result ≠ 0x80) ∧
      (Masked (machineAt .byte .dec 0x7F) ∧ ∃ u, exec .getValue (machineAt .byte .dec 0x7F) = .next u ∧
        u.result = 0x7F) ∧
      (Masked (machineAt .qword .dec (-1)) ∧ ∃ u, exec .getValue (machineAt .qword .dec (-1)) = .next u ∧
        u.result = -1) :=
  ⟨⟨by decide, _, rfl, by decide⟩, ⟨by decide, _, rfl, by decide⟩, ⟨by decide, _, rfl, by decide⟩⟩

/-- The last character of a text of 64, and the first `0x00` after a text of one. -/
theorem witness_DisplayPresentsTheText :
    (render (machineAt .qword .bin (-1)))[(63 : Fin 64).val]? = some '1' ∧
      ∃ t, exec .display State.reset = .next t ∧ t.textLen.toNat ≤ (1 : Fin 64).val :=
  ⟨by decide +kernel, _, rfl, by decide +kernel⟩

/-- The smallest and the largest amount of a byte, and the largest of a quadword. -/
theorem witness_RotateAmountsWrapAround :
    (0 < 1 ∧ 1 < (machineAt .byte .dec 0).ws.bits) ∧ (0 < 7 ∧ 7 < (machineAt .byte .dec 0).ws.bits) ∧
      (0 < 63 ∧ 63 < (machineAt .qword .dec 0).ws.bits) := by decide

/-- The same word size twice, and the widest change. -/
theorem witness_WordSizeChangesCompose :
    WordSize.byte.bits ≤ WordSize.byte.bits ∧ WordSize.byte.bits ≤ WordSize.qword.bits := by decide

/-- A failing instruction, and a failing step on a legal and on an illegal word. -/
theorem witness_FailedCommandChangesNothing :
    (∃ t, exec (.divide 5 0) (machineAt .byte .dec 0x5A) = .next t ∧ statusO t ≠ 0) ∧
      (∃ t, step (given (machineAt .byte .dec 0x5A) [.command ⟨0x0E, -1, 0⟩]) = .next t ∧ statusO t ≠ 0) ∧
      ∃ t, step (given (machineAt .byte .dec 0x5A) [.command ⟨0x81, 5, 3⟩]) = .next t ∧ statusO t ≠ 0 :=
  ⟨⟨_, rfl, by decide +kernel⟩, ⟨_, rfl, by decide +kernel⟩, ⟨_, rfl, by decide +kernel⟩⟩

/-- The inputs of each case of the statement, and the STATUS that the rules give them (VE9, VA27, VA34, VM10, VM20,
VM15, VE2). -/
theorem witness_StatusOfEveryCommand :
    [(⟨0x81, 5, 3⟩ : Command), ⟨0x04, 5, 0⟩, ⟨0x05, 7, 0⟩, ⟨0x0E, -1, 0⟩, ⟨0x0F, 0, 0⟩, ⟨0x0F, 2, 0⟩,
      ⟨0x01, 5, 3⟩].map (fun c => (shown (step (given State.reset [.command c]))).map (·.1)) =
      [some 4, some 1, some 1, some 2, some 1, some 3, some 0] := by decide +kernel

theorem witness_ModesHaveOneWriterEach :
    (∃ t, exec (.setWordSize .byte) State.reset = .next t ∧ t.ws ≠ State.reset.ws) ∧
      (∃ t, exec (.setBase .hex) State.reset = .next t ∧ t.base ≠ State.reset.base) ∧
      ∃ t, exec .getRaw (machineAt .byte .dec 0xFF) = .next t ∧ Instr.getRaw = .getRaw :=
  ⟨⟨_, rfl, by decide⟩, ⟨_, rfl, by decide⟩, ⟨_, rfl, rfl⟩⟩

theorem witness_RadixAffectsOnlyTheText :
    ∃ t u, exec .display (machineAt .byte .dec 0xFF) = .next t ∧
      exec .display { machineAt .byte .dec 0xFF with base := .hex } = .next u ∧ u.text ≠ t.text :=
  ⟨_, _, rfl, rfl, by decide +kernel⟩

/-- The first and the last of the commands, the last one failing and completing. -/
theorem witness_AluCommandsDoNotReadTheRegister :
    ((encode (.add 5 3)).cmd.toNat ≤ 0x0F ∧ (encode (.reciprocal 1)).cmd.toNat ≤ 0x0F) ∧
      (∃ t u, exec (.reciprocal 1) (machineAt .byte .dec 0x5A) = .next t ∧
        exec (.reciprocal 1) { machineAt .byte .dec 0x5A with raw := 7 } = .next u ∧ t.status = .ok) ∧
      ∃ t u, exec (.reciprocal 2) (machineAt .byte .dec 0x5A) = .next t ∧
        exec (.reciprocal 2) { machineAt .byte .dec 0x5A with raw := 7 } = .next u ∧ t.status ≠ .ok :=
  ⟨by decide, ⟨_, _, rfl, rfl, by decide +kernel⟩, ⟨_, _, rfl, rfl, by decide +kernel⟩⟩

/-- Each disjunct of both clauses at the ends of its range. -/
theorem witness_UnreadBusesHaveNoEffect :
    (Command.mk 0x09 0 0).opc = 0x09 ∧ 0x0E ≤ (Command.mk 0x0E 0 0).opc.toNat ∧
      0x0E ≤ (Command.mk 0x1F 0 0).opc.toNat ∧ (Command.mk 0x00 0 0).legal = false ∧
      (Command.mk 0x70 0 0).opc = 0x10 ∧ (Command.mk 0x11 0 0).opc = 0x11 ∧
      0x14 ≤ (Command.mk 0x14 0 0).opc.toNat := by decide

theorem witness_EveryStepCompletes : State.reset.resetSeen = true ∧ pendingAdd.resetSeen = true := ⟨rfl, rfl⟩

/-- A completion of `getRaw`, of `display` and of another command, a failure, and an illegal word. -/
theorem witness_ResultIsTheRegisterAfterTheCommand :
    (∃ t, exec .getRaw (machineAt .byte .dec 0xFF) = .next t ∧ statusO t = 0) ∧
      (∃ t, exec .display State.reset = .next t ∧ statusO t = 0 ∧ (render t)[(0 : Fin 64).val]? = some '0') ∧
      (∃ t, exec (.add 5 3) State.reset = .next t ∧ statusO t = 0) ∧
      (∃ t, exec (.mod 5 0) State.reset = .next t ∧ statusO t ≠ 0) ∧
      ((Command.mk 0x81 5 3).legal = false ∧
        ∃ t, step (given State.reset [.command ⟨0x81, 5, 3⟩]) = .next t ∧ t.result = 0) :=
  ⟨⟨_, rfl, by decide⟩, ⟨_, rfl, by decide, by decide +kernel⟩, ⟨_, rfl, by decide⟩,
    ⟨_, rfl, by decide +kernel⟩, by decide, _, rfl, by decide +kernel⟩

theorem witness_RegisterReadingsAreInRange :
    Masked (machineAt .byte .dec 0xFF) ∧ Masked (machineAt .qword .dec (-1)) := by decide

theorem witness_RunsComposeSequentially :
    ∃ t, runSteps [HostInput.command ⟨0x01, 5, 3⟩, .rst].length
      { State.reset with inputs := [.command ⟨0x01, 5, 3⟩, .rst] } = .next t :=
  ⟨_, rfl⟩

theorem witness_ResetDiscardsTheHistory : (machineAt .byte .hex 0xFF).resetSeen = true := rfl

theorem witness_RadixTextIsThePositionalNumeral :
    ((machineAt .byte .bin 0xFF).base = .bin ∧ 2 = 2) ∧ ((machineAt .word .oct 0).base = .oct ∧ 8 = 8) ∧
      ((machineAt .qword .hex (-1)).base = .hex ∧ 16 = 16) := by decide

theorem witness_DecimalTextIsTheSignedNumeral :
    (machineAt .byte .dec 0x80).base = .dec ∧ State.reset.base = .dec := by decide

theorem witness_RenderingIsInjective :
    Masked (machineAt .byte .oct 0xFF) ∧ Masked { machineAt .byte .oct 0xFF with result := 7 } ∧
      render (machineAt .byte .oct 0xFF) = render { machineAt .byte .oct 0xFF with result := 7 } := by decide +kernel

/-- The ends of the range and 0. -/
theorem witness_DecimalLiteralsAssemble :
    (-2 ^ 63 ≤ -(2 : Int) ^ 63 ∧ -(2 : Int) ^ 63 < 2 ^ 64) ∧
      (-2 ^ 63 ≤ (2 : Int) ^ 64 - 1 ∧ (2 : Int) ^ 64 - 1 < 2 ^ 64) ∧ (-2 ^ 63 ≤ (0 : Int) ∧ (0 : Int) < 2 ^ 64) := by decide

end Sys2Proof.Tests
end

section
/-! SUPPORT. What the rules of the 22 commands do to the register, classified once: a command loads a pattern that
depends on the word size only, or writes one mode, or leaves the state as it is (spec/10_state.md R15 to R19). -/

namespace Sys2Proof.Machine

/-- Only the word size decides what the command does: it stores one masked pattern, or raises one error (R16, R17). -/
def LoadsRegister (i : Instr) : Prop :=
  ∀ ws, (∃ v, v &&& ~~~ mask ws = 0 ∧ ∀ s : State, s.ws = ws → ruleOf i s = .done (setRawField s v)) ∨
    (∃ k, ∀ s : State, s.ws = ws → ruleOf i s = .raised k)

theorem loadsRegister_of_done {i : Instr} (p : WordSize → Word) (hp : ∀ ws, p ws &&& ~~~ mask ws = 0)
    (h : ∀ s, ruleOf i s = .done (setRawField s (p s.ws))) : LoadsRegister i :=
  fun ws => .inl ⟨p ws, hp ws, fun s hs => hs ▸ h s⟩

theorem loadsRegister_of_store {i : Instr} (r : Int) (h : ∀ s, ruleOf i s = .done (store s r)) : LoadsRegister i :=
  loadsRegister_of_done (fun ws => pat ws r) (fun ws => pat_masked ws r) h

theorem loadsRegister_of_raised {i : Instr} (k : ErrorKind) (h : ∀ s, ruleOf i s = .raised k) : LoadsRegister i :=
  fun _ => .inr ⟨k, fun s _ => h s⟩

theorem shiftValue_masked (ws : WordSize) (a : Word) : shiftValue ws a &&& ~~~ mask ws = 0 :=
  masked_and_mask ws a

/-- A shift to the right brings no bit above the word size (42_shift_rotate.md R66). -/
theorem shrPattern_masked {ws : WordSize} {v : Word} (h : v &&& mask ws = v) (k : Nat) :
    shrPattern v k &&& ~~~ mask ws = 0 := by
  have hlt : (shrPattern v k).toNat < 2 ^ ws.bits :=
    calc (shrPattern v k).toNat = v.toNat >>> k := BitVec.toNat_ushiftRight ..
      _ ≤ v.toNat := Nat.shiftRight_le ..
      _ < 2 ^ ws.bits := h ▸ toNat_and_mask_lt ws v
  rw [← and_mask_of_lt hlt, masked_and_mask]

theorem rolPattern_masked {ws : WordSize} {v : Word} (h : v &&& ~~~ mask ws = 0) (k : Nat) :
    rolPattern ws v k &&& ~~~ mask ws = 0 := by
  unfold rolPattern
  split
  · exact h
  · exact masked_and_mask ws _

theorem rorPattern_masked {ws : WordSize} {v : Word} (h : v &&& ~~~ mask ws = 0) (k : Nat) :
    rorPattern ws v k &&& ~~~ mask ws = 0 := by
  unfold rorPattern
  split
  · exact h
  · exact masked_and_mask ws _

theorem loadsRegister_divide (a b : Word) : LoadsRegister (.divide a b) := by
  by_cases hb : s64 b = 0
  · exact loadsRegister_of_raised .divisionByZero fun _ => if_pos hb
  · exact loadsRegister_of_store (tdiv (s64 a) (s64 b)) fun _ => if_neg hb

theorem loadsRegister_mod (a b : Word) : LoadsRegister (.mod a b) := by
  by_cases hb : s64 b = 0
  · exact loadsRegister_of_raised .divisionByZero fun _ => if_pos hb
  · exact loadsRegister_of_store (trem (s64 a) (s64 b)) fun _ => if_neg hb

theorem loadsRegister_isqrt (a : Word) : LoadsRegister (.isqrt a) := by
  by_cases ha : s64 a < 0
  · exact loadsRegister_of_raised .invalidOperand fun _ => if_pos ha
  · exact loadsRegister_of_store (isqrtFloor (s64 a).toNat) fun _ => if_neg ha

theorem loadsRegister_reciprocal (a : Word) : LoadsRegister (.reciprocal a) := by
  by_cases ha : s64 a = 0
  · exact loadsRegister_of_raised .divisionByZero fun _ => if_pos ha
  by_cases hr : trem 1 (s64 a) = 0
  · exact loadsRegister_of_store (tdiv 1 (s64 a)) fun _ => (if_neg ha).trans (if_neg (not_not.2 hr))
  · exact loadsRegister_of_raised .notRepresentable fun _ => (if_neg ha).trans (if_pos hr)

/-- Every instruction loads the register, writes one mode, or only reads. -/
theorem loads_or_sets_mode_or_reads (i : Instr) :
    LoadsRegister i ∨ (∃ r, i = .setBase r) ∨ (∃ w, i = .setWordSize w) ∨
      (i = .getValue ∨ i = .getRaw ∨ i = .display) := by
  cases i with
  | add a b => exact .inl (loadsRegister_of_store _ fun _ => rfl)
  | subtract a b => exact .inl (loadsRegister_of_store _ fun _ => rfl)
  | multiply a b => exact .inl (loadsRegister_of_store _ fun _ => rfl)
  | divide a b => exact .inl (loadsRegister_divide a b)
  | mod a b => exact .inl (loadsRegister_mod a b)
  | bitAnd a b => exact .inl (loadsRegister_of_done _ (fun ws => masked_and_mask ws _) fun _ => rfl)
  | bitOr a b => exact .inl (loadsRegister_of_done _ (fun ws => masked_and_mask ws _) fun _ => rfl)
  | bitXor a b => exact .inl (loadsRegister_of_done _ (fun ws => masked_and_mask ws _) fun _ => rfl)
  | bitNot a => exact .inl (loadsRegister_of_done _ (fun ws => masked_and_mask ws _) fun _ => rfl)
  | shl a b =>
    exact .inl (loadsRegister_of_done (fun ws => shlPattern ws (shiftValue ws a) (shiftAmount ws b))
      (fun ws => masked_and_mask ws _) fun _ => rfl)
  | shr a b =>
    exact .inl (loadsRegister_of_done (fun ws => shrPattern (shiftValue ws a) (shiftAmount ws b))
      (fun ws => shrPattern_masked (and_mask_and_mask ws a) _) fun _ => rfl)
  | rol a b =>
    exact .inl (loadsRegister_of_done (fun ws => rolPattern ws (shiftValue ws a) (shiftAmount ws b))
      (fun ws => rolPattern_masked (shiftValue_masked ws a) _) fun _ => rfl)
  | ror a b =>
    exact .inl (loadsRegister_of_done (fun ws => rorPattern ws (shiftValue ws a) (shiftAmount ws b))
      (fun ws => rorPattern_masked (shiftValue_masked ws a) _) fun _ => rfl)
  | isqrt a => exact .inl (loadsRegister_isqrt a)
  | reciprocal a => exact .inl (loadsRegister_reciprocal a)
  | setBase r => exact .inr (.inl ⟨r, rfl⟩)
  | setWordSize w => exact .inr (.inr (.inl ⟨w, rfl⟩))
  | setValue a => exact .inl (loadsRegister_of_store _ fun _ => rfl)
  | setRaw a => exact .inl (loadsRegister_of_store _ fun _ => rfl)
  | getValue => exact .inr (.inr (.inr (.inl rfl)))
  | getRaw => exact .inr (.inr (.inr (.inr (.inl rfl))))
  | display => exact .inr (.inr (.inr (.inr (.inr rfl))))

/-- The commands 0x01 to 0x0F take what they store from their operands and the word size (R17). -/
theorem loadsRegister_of_alu {i : Instr} (h : (encode i).cmd.toNat ≤ 0x0F) : LoadsRegister i := by
  obtain hi | ⟨r, rfl⟩ | ⟨w, rfl⟩ | rfl | rfl | rfl := loads_or_sets_mode_or_reads i
  · exact hi
  · cases r <;> exact absurd h (by decide)
  · cases w <;> exact absurd h (by decide)
  all_goals exact absurd h (by decide)

/-- What a rule that completes can leave: a masked pattern loaded, one mode written, or the state as it was. -/
theorem ruleOf_done_cases {i : Instr} {s u : State} (h : ruleOf i s = .done u) :
    (∃ v, v &&& ~~~ mask s.ws = 0 ∧ u = setRawField s v) ∨
    (∃ r, i = .setBase r ∧ u = setBaseField s r) ∨
    (∃ w, i = .setWordSize w ∧ u = setRawField (setWsField s w) (s.raw &&& mask w)) ∨ u = s := by
  obtain hi | ⟨r, rfl⟩ | ⟨w, rfl⟩ | rfl | rfl | rfl := loads_or_sets_mode_or_reads i
  · obtain ⟨v, hv, hdone⟩ | ⟨k, hraised⟩ := hi s.ws
    · exact .inl ⟨v, hv, RuleResult.done.inj (h.symm.trans (hdone s rfl))⟩
    · cases h.symm.trans (hraised s rfl)
  · cases h; exact .inr (.inl ⟨r, rfl, rfl⟩)
  · cases h; exact .inr (.inr (.inl ⟨w, rfl, rfl⟩))
  all_goals cases h; exact .inr (.inr (.inr rfl))

theorem exec_of_done {i : Instr} {s u : State} (h : ruleOf i s = .done u) :
    exec i s = .next (respond u .ok (resultOf i u) (textOf i u)) := by
  rw [exec_eq, execute_done h]

theorem exec_of_raised {i : Instr} {s : State} {k : ErrorKind} (h : ruleOf i s = .raised k) :
    exec i s = .next (respond s (.error k) 0 []) := by
  rw [exec_eq, execute_raised h]

theorem textOf_of_ne_display {i : Instr} (h : i ≠ .display) (s : State) : textOf i s = [] := by
  cases i with
  | display => exact absurd rfl h
  | _ => rfl

/-- RESULT is read off `raw` and the word size alone (30_encoding.md R46). -/
theorem resultOf_congr (i : Instr) {s t : State} (hraw : s.raw = t.raw) (hws : s.ws = t.ws) :
    resultOf i s = resultOf i t := by
  have hmasked : maskedRaw s = maskedRaw t := by rw [maskedRaw, maskedRaw, hraw, hws]
  have hsigned : signedResult s = signedResult t := by rw [signedResult, signedResult, hmasked, hws]
  cases i with
  | getRaw => exact hmasked
  | _ => exact hsigned

end Sys2Proof.Machine
end

section
/-! SUPPORT. The two readings of the register as the readings of its low `w` bits (spec/10_state.md R20, R21). -/

namespace Sys2Proof.Machine

/-- The low `w` bits of the register. -/
abbrev lowBits (s : State) : BitVec s.ws.bits := s.raw.setWidth s.ws.bits

theorem sval_eq_toInt (s : State) : sval s = (lowBits s).toInt := by
  rw [sval_eq, BitVec.toInt_setWidth]

theorem uval_eq_toNat (s : State) : uval s = (lowBits s).toNat := by
  rw [uval_eq, BitVec.toNat_setWidth]

theorem uval_lt (s : State) : uval s < 2 ^ s.ws.bits := uval_eq_toNat s ▸ (lowBits s).isLt

theorem uval_of_masked {s : State} (h : Masked s) : uval s = s.raw.toNat :=
  congrArg BitVec.toNat (and_mask_of_masked h)

/-- Bit `w-1` is the sign bit of the low `w` bits. -/
theorem msb_lowBits (s : State) : (lowBits s).msb = s.raw.getLsbD (s.ws.bits - 1) := by
  have h := s.ws.bits_pos
  rw [BitVec.msb_eq_getLsbD_last, BitVec.getLsbD_setWidth]
  simp [show s.ws.bits - 1 < s.ws.bits by omega]

theorem sval_eq_uval_sub (s : State) :
    sval s = (uval s : Int) - (if s.raw.getLsbD (s.ws.bits - 1) then 2 ^ s.ws.bits else 0) := by
  rw [sval_eq_toInt, uval_eq_toNat, BitVec.toInt_eq_msb_cond, msb_lowBits]
  split <;> simp

theorem sval_emod (s : State) : (sval s - (s.raw.toNat : Int)) % 2 ^ s.ws.bits = 0 := by
  rw [sval_eq]
  have h := Int.bmod_emod (x := (s.raw.toNat : Int)) (m := 2 ^ s.ws.bits)
  push_cast at h
  exact Int.emod_eq_emod_iff_emod_sub_eq_zero.1 h

end Sys2Proof.Machine
end

section
/-! SUPPORT. Every text that a command presents fits the text port and is written in R84's characters
(spec/45_rendering.md R79 to R84). -/

namespace Sys2Proof.Machine

/-- The text fits `TEXT[0..63]`, and each of its characters is in R84's table. -/
def Presentable (t : List Char) : Prop := t.length ≤ 64 ∧ ∀ c ∈ t, displayable (charCode c)

theorem presentable_nil : Presentable [] := ⟨by simp, by simp⟩

theorem displayable_digitChar : ∀ d < 16, displayable (charCode (digitChar d)) := by decide

theorem displayable_of_mem_digits {n radix : Nat} (hr : 1 < radix) (hr' : radix ≤ 16) :
    ∀ c ∈ digits n radix, displayable (charCode c) := by
  intro c hc
  by_cases hn : n = 0
  · rw [hn, digits_zero, List.mem_singleton] at hc
    exact hc ▸ displayable_digitChar 0 (by decide)
  · rw [digits_eq hr hn, List.mem_map] at hc
    obtain ⟨d, hd, rfl⟩ := hc
    exact displayable_digitChar d ((Nat.digits_lt_base hr (List.mem_reverse.1 hd)).trans_le hr')

theorem presentable_digits {n radix : Nat} (hr : 1 < radix) (hr' : radix ≤ 16) (h : n < 2 ^ 64) :
    Presentable (digits n radix) :=
  ⟨length_digits_le hr (by decide) (h.trans_le (Nat.pow_le_pow_left hr 64)), displayable_of_mem_digits hr hr'⟩

/-- A decimal text of a 64-bit number leaves room for the sign. -/
theorem presentable_decText {x : Int} (hlo : -2 ^ 63 ≤ x) (hhi : x < 2 ^ 63) : Presentable (decText x) := by
  unfold decText
  split
  · have hlen : (digits (-x).toNat 10).length ≤ 63 := length_digits_le (by decide) (by decide) (by omega)
    refine ⟨Nat.succ_le_succ hlen, List.forall_mem_cons.2 ⟨by decide, ?_⟩⟩
    exact displayable_of_mem_digits (by decide) (by decide)
  · exact presentable_digits (by decide) (by decide) (by omega)

theorem presentable_render (s : State) : Presentable (render s) := by
  have hu : uval s < 2 ^ 64 := (maskedRaw s).isLt
  unfold render
  split
  · exact presentable_decText (BitVec.le_toInt (signedResult s)) (BitVec.toInt_lt (x := signedResult s))
  all_goals exact presentable_digits (by decide) (by decide) hu

theorem presentable_textOf (i : Instr) (s : State) : Presentable (textOf i s) := by
  by_cases h : i = .display
  · exact h ▸ presentable_render s
  · exact textOf_of_ne_display h s ▸ presentable_nil

end Sys2Proof.Machine
end

section
/-! SUPPORT. The invariant, over the shared operations: a response over a masked register establishes it, and every
rule leaves the register masked (spec/10_state.md R16, 45_rendering.md R84, 60_exceptions.md R89). -/

namespace Sys2Proof.Machine

theorem toNat_respond_textLen (s : State) (st : Status) (v : Word) {t : List Char} (h : t.length ≤ 64) :
    (respond s st v t).textLen.toNat = t.length := by
  rw [respond_textLen, BitVec.toNat_ofNat, Nat.mod_eq_of_lt (by omega)]

theorem textPadded_respond (s : State) (st : Status) (v : Word) {t : List Char} (h : Presentable t) :
    TextPadded (respond s st v t) := by
  rw [TextPadded, toNat_respond_textLen s st v h.1]
  exact ⟨h.1, fun i hi => textPort_padded t i i.isLt hi⟩

theorem textDisplayable_respond (s : State) (st : Status) (v : Word) {t : List Char} (h : Presentable t) :
    TextDisplayable (respond s st v t) := by
  rw [TextDisplayable, toNat_respond_textLen s st v h.1]
  intro i hi
  have hcode : (textPort t)[i.val] = charCode t[i.val] := by
    rw [textPort_getElem t i i.isLt, List.getElem?_eq_getElem hi]
    rfl
  exact hcode.symm ▸ h.2 _ (List.getElem_mem hi)

theorem inv_respond_ok {s : State} (v : Word) {t : List Char} (hs : Masked s) (ht : Presentable t) :
    Inv (respond s .ok v t) :=
  ⟨hs, textPadded_respond s .ok v ht, (absurd rfl ·), textDisplayable_respond s .ok v ht⟩

theorem inv_respond_error {s : State} (k : ErrorKind) (hs : Masked s) : Inv (respond s (.error k) 0 []) :=
  ⟨hs, textPadded_respond s _ 0 presentable_nil, fun _ => ⟨rfl, rfl⟩, textDisplayable_respond s _ 0 presentable_nil⟩

theorem masked_of_ruleOf_done {i : Instr} {s u : State} (hs : Masked s) (h : ruleOf i s = .done u) : Masked u := by
  obtain ⟨v, hv, rfl⟩ | ⟨r, rfl, rfl⟩ | ⟨w, rfl, rfl⟩ | rfl := ruleOf_done_cases h
  · exact hv
  · exact hs
  · exact masked_and_mask w s.raw
  · exact hs

theorem inv_exec {i : Instr} {s t : State} (hs : Masked s) (h : exec i s = .next t) : Inv t := by
  obtain ⟨u, hu, rfl⟩ | ⟨k, -, rfl⟩ := exec_cases h
  · exact inv_respond_ok _ (masked_of_ruleOf_done hs hu) (presentable_textOf i u)
  · exact inv_respond_error k hs

theorem noText_reset : NoText State.reset := ⟨rfl, by decide⟩

theorem inv_reset : Inv State.reset := by
  obtain ⟨hlen, htext⟩ := noText_reset
  refine ⟨BitVec.zero_and, ⟨by rw [hlen]; decide, fun i _ => htext i⟩, (absurd rfl ·), fun i hi => ?_⟩
  rw [hlen] at hi
  exact absurd hi (Nat.not_lt_zero _)

end Sys2Proof.Machine
end

section
/-! The statements on the register, the modes and the invariant (spec/10_state.md). -/

namespace Sys2Proof.Machine

/-- Settles O13: the wait keeps the state, RST gives the reset state, and every command ends in a response over a
masked register. -/
theorem everyStepKeepsTheInvariant : Obligations.EveryStepKeepsTheInvariant := by
  intro s t hs h
  obtain ⟨-, rfl⟩ | ⟨rest, -, rfl⟩ | ⟨c, rest, i, -, -, -, hexec⟩ | ⟨c, rest, why, -, -, -, rfl⟩ := step_cases h
  · exact hs
  · exact inv_reset
  · exact inv_exec (s := { s with inputs := rest }) hs.1 hexec
  · exact inv_respond_error (s := { s with inputs := rest }) .illegalCommand hs.1

/-- Two runs of a rule that differ in the radix alone raise the same error, or agree on the register and the word
size. -/
theorem ruleOf_with_base (i : Instr) (s : State) (r : Base) :
    (∃ k, ruleOf i s = .raised k ∧ ruleOf i { s with base := r } = .raised k) ∨
    (∃ t u, ruleOf i s = .done t ∧ ruleOf i { s with base := r } = .done u ∧ u.raw = t.raw ∧ u.ws = t.ws) := by
  obtain hi | ⟨r', rfl⟩ | ⟨w, rfl⟩ | rfl | rfl | rfl := loads_or_sets_mode_or_reads i
  · obtain ⟨v, -, hdone⟩ | ⟨k, hraised⟩ := hi s.ws
    · exact .inr ⟨_, _, hdone s rfl, hdone _ rfl, rfl, rfl⟩
    · exact .inl ⟨k, hraised s rfl, hraised _ rfl⟩
  all_goals exact .inr ⟨_, _, rfl, rfl, rfl, rfl⟩

/-- Settles O44: the rules do not read the radix, and RESULT is read off the register and the word size. -/
theorem radixAffectsOnlyTheText : Obligations.RadixAffectsOnlyTheText := by
  intro i s t u r ht hu
  obtain ⟨k, hk, hk'⟩ | ⟨t', u', ht', hu', hraw, hws⟩ := ruleOf_with_base i s r
  · rw [exec_of_raised hk] at ht
    rw [exec_of_raised hk'] at hu
    cases ht; cases hu
    exact ⟨rfl, rfl, rfl, rfl, fun _ => ⟨rfl, rfl⟩⟩
  · rw [exec_of_done ht'] at ht
    rw [exec_of_done hu'] at hu
    cases ht; cases hu
    simp only [respond_raw, respond_ws, respond_status, respond_result, respond_textLen, respond_text]
    refine ⟨hraw, hws, trivial, resultOf_congr i hraw hws, fun hi => ?_⟩
    rw [textOf_of_ne_display hi, textOf_of_ne_display hi]
    exact ⟨rfl, rfl⟩

/-- Settles O45: what the fifteen commands store, or the error they raise, is the same for both registers. -/
theorem aluCommandsDoNotReadTheRegister : Obligations.AluCommandsDoNotReadTheRegister := by
  intro i s t u v hi ht hu
  obtain ⟨p, -, hdone⟩ | ⟨k, hraised⟩ := loadsRegister_of_alu hi s.ws
  · have hsame : u = t := by
      rw [exec_of_done (hdone s rfl)] at ht
      rw [exec_of_done (hdone { s with raw := v } rfl)] at hu
      cases ht; cases hu
      rfl
    simp [hsame]
  · rw [exec_of_raised (hraised s rfl)] at ht
    rw [exec_of_raised (hraised { s with raw := v } rfl)] at hu
    cases ht; cases hu
    exact ⟨rfl, rfl, rfl, rfl, fun h => nomatch h⟩

/-- Settles O50: both readings are those of the low `w` bits. -/
theorem registerReadingsAreInRange : Obligations.RegisterReadingsAreInRange := fun s =>
  ⟨sval_eq_toInt s ▸ BitVec.le_toInt _, sval_eq_toInt s ▸ BitVec.toInt_lt, sval_emod s, uval_lt s, uval_of_masked,
    sval_eq_uval_sub s⟩

/-- Settles O1, by evaluating each field and port of the reset state. -/
theorem resetStateHoldsItsValues : Obligations.ResetStateHoldsItsValues :=
  ⟨rfl, rfl, rfl, rfl, rfl, by decide, by decide, rfl, rfl, rfl, rfl, noText_reset⟩

/-- Settles O12: the register is 0, no text is presented, and STATUS is Ok. -/
theorem invariantHoldsAtReset : Obligations.InvariantHoldsAtReset := inv_reset

/-- Settles O43: a response changes no mode and no field of the host's, so only what the rule leaves counts. -/
theorem modesHaveOneWriterEach : Obligations.ModesHaveOneWriterEach := by
  intro i s t h
  have hread : (i = .getValue ∨ i = .getRaw ∨ i = .display ∨ ∃ r, i = .setBase r) → t.raw = s.raw := by
    rintro (rfl | rfl | rfl | ⟨r, rfl⟩) <;> (cases h; rfl)
  obtain ⟨u, hu, rfl⟩ | ⟨k, -, rfl⟩ := exec_cases h
  · obtain ⟨v, -, rfl⟩ | ⟨r, hr, rfl⟩ | ⟨w, hw, rfl⟩ | rfl := ruleOf_done_cases hu
    · exact ⟨(absurd rfl ·), (absurd rfl ·), hread, rfl, rfl⟩
    · exact ⟨(absurd rfl ·), fun _ => ⟨r, hr⟩, hread, rfl, rfl⟩
    · exact ⟨fun _ => ⟨w, hw⟩, (absurd rfl ·), hread, rfl, rfl⟩
    · exact ⟨(absurd rfl ·), (absurd rfl ·), hread, rfl, rfl⟩
  · exact ⟨(absurd rfl ·), (absurd rfl ·), hread, rfl, rfl⟩

/-- `w = 8 * 2^ws` (R18). -/
theorem bits_eq_of_code (ws : WordSize) : ws.bits = 8 * 2 ^ ws.code.toNat := by
  cases ws <;> rfl

/-- Settles O59: naming a mode by its code and reading the code back are inverse, and the mask is as wide as the
word size. -/
theorem modeCodesAndMasks : Obligations.ModeCodesAndMasks := by
  intro c s
  have hbits : (WordSize.ofCode c).bits = 8 * 2 ^ c.toNat := by
    rw [bits_eq_of_code, WordSize.code_ofCode]
  refine ⟨WordSize.code_ofCode c, Base.code_ofCode c, WordSize.code_ofCode c, Base.code_ofCode c, hbits, fun i => ?_⟩
  rw [mask_getLsbD, hbits]

end Sys2Proof.Machine
end

section
/-! SUPPORT. The rules and the responses read the register and the modes alone: neither the response still held nor
the inputs still pending (spec/20_memory.md R31, R33). -/

namespace Sys2Proof.Machine

/-- The register, the modes and the reset mark of `s`, with the held response and the pending inputs of `r`. -/
def withHeldOf (s r : State) : State :=
  { s with status := r.status, result := r.result, textLen := r.textLen, text := r.text, inputs := r.inputs }

/-- Two runs of a rule that differ in the held response and the pending inputs alone raise the same error, or
complete in states that differ likewise. -/
theorem ruleOf_withHeldOf (i : Instr) (s r : State) :
    (∃ k, ruleOf i s = .raised k ∧ ruleOf i (withHeldOf s r) = .raised k) ∨
    (∃ u, ruleOf i s = .done u ∧ ruleOf i (withHeldOf s r) = .done (withHeldOf u r)) := by
  obtain hi | ⟨b, rfl⟩ | ⟨w, rfl⟩ | rfl | rfl | rfl := loads_or_sets_mode_or_reads i
  · obtain ⟨v, -, hdone⟩ | ⟨k, hraised⟩ := hi s.ws
    · exact .inr ⟨_, hdone s rfl, hdone (withHeldOf s r) rfl⟩
    · exact .inl ⟨k, hraised s rfl, hraised (withHeldOf s r) rfl⟩
  all_goals exact .inr ⟨_, rfl, rfl⟩

theorem resultOf_withHeldOf (i : Instr) (s r : State) : resultOf i (withHeldOf s r) = resultOf i s :=
  resultOf_congr i rfl rfl

theorem textOf_withHeldOf (i : Instr) (s r : State) : textOf i (withHeldOf s r) = textOf i s := by
  cases i <;> rfl

/-- A response overwrites all that was held, so of the foreign fields the pending inputs alone stay. -/
theorem respond_withHeldOf (s r : State) (st : Status) (v : Word) (t : List Char) :
    respond (withHeldOf s r) st v t = { respond s st v t with inputs := r.inputs } := rfl

theorem exec_withHeldOf {i : Instr} {s t : State} (h : exec i s = .next t) (r : State) :
    exec i (withHeldOf s r) = .next { t with inputs := r.inputs } := by
  obtain ⟨k, hk, hk'⟩ | ⟨u, hu, hu'⟩ := ruleOf_withHeldOf i s r
  · rw [exec_of_raised hk] at h
    cases h
    rw [exec_of_raised hk', respond_withHeldOf]
  · rw [exec_of_done hu] at h
    cases h
    rw [exec_of_done hu', resultOf_withHeldOf, textOf_withHeldOf, respond_withHeldOf]

/-- No instruction touches what the host has still to present. -/
theorem exec_inputs {i : Instr} {s t : State} (h : exec i s = .next t) : t.inputs = s.inputs := by
  obtain ⟨-, -, -, -, hinputs⟩ := modesHaveOneWriterEach i s t h
  exact hinputs

/-- A step takes the first input and does not read ahead: whatever is pending behind it stays pending and changes
nothing else. -/
theorem step_cons {s t : State} {x : HostInput} {xs : List HostInput}
    (h : step { s with inputs := x :: xs } = .next t) :
    t.inputs = xs ∧ ∀ zs, step { s with inputs := x :: zs } = .next { t with inputs := zs } := by
  obtain ⟨hnil, -⟩ | ⟨rest, hx, rfl⟩ | ⟨c, rest, i, hx, hr, hd, hexec⟩ | ⟨c, rest, why, hx, hr, hd, rfl⟩ :=
    step_cases h
  · cases hnil
  · cases hx
    exact ⟨rfl, fun zs => step_rst rfl⟩
  · cases hx
    refine ⟨exec_inputs hexec, fun zs => ?_⟩
    rw [step_instr (s := { s with inputs := .command c :: zs }) rfl hr hd]
    exact exec_withHeldOf hexec { s with inputs := zs }
  · cases hx
    exact ⟨rfl, fun zs => step_reserved rfl hr hd⟩

end Sys2Proof.Machine
end

section
/-! The statements on the order of the commands and on what one leaves for the next (spec/20_memory.md). -/

namespace Sys2Proof.Machine

/-- Settles O46: no rule reads the held response, and the new response replaces all of it. -/
theorem earlierResponsesLeaveNoTrace : Obligations.EarlierResponsesLeaveNoTrace := by
  intro i s st v n tx
  have hexec := exec_eq i s
  have hinputs := exec_inputs hexec
  calc exec i { s with status := st, result := v, textLen := n, text := tx }
      = .next { execute (ruleOf i) (resultOf i) (textOf i) s with inputs := s.inputs } :=
        exec_withHeldOf hexec { s with status := st, result := v, textLen := n, text := tx }
    _ = .next (execute (ruleOf i) (resultOf i) (textOf i) s) := by rw [← hinputs]
    _ = exec i s := hexec.symm

/-- Settles O51, by induction on the inputs of the first run: each step takes one of them and does not read ahead. -/
theorem runsComposeSequentially : Obligations.RunsComposeSequentially := by
  intro xs ys s t h n
  induction xs generalizing s with
  | nil =>
    cases h
    rw [List.length_nil, Nat.zero_add, List.nil_append]
  | cons x xs ih =>
    obtain ⟨u, hu, ht⟩ := step_of_runSteps_succ h
    obtain ⟨hinputs, hstep⟩ := step_cons hu
    have hrest : runSteps xs.length { u with inputs := xs } = .next t := by
      rw [← hinputs] at ht ⊢
      exact ht
    calc runSteps ((x :: xs).length + n) { s with inputs := x :: xs ++ ys }
        = runSteps (xs.length + n + 1) { s with inputs := x :: (xs ++ ys) } := by
          rw [List.length_cons, Nat.add_right_comm, List.cons_append]
      _ = runSteps (xs.length + n) { u with inputs := xs ++ ys } := runSteps_succ_of_next (hstep (xs ++ ys)) _
      _ = runSteps n { t with inputs := ys } := ih u hrest

/-- Settles O4: with no input to fetch the step is the wait. -/
theorem blockWaitsWithoutInput : Obligations.BlockWaitsWithoutInput := fun _ => step_wait

end Sys2Proof.Machine
end

section
/-! The command word as the pair of its fields, and decoding as the inverse of encoding: a command decodes to `i`
exactly when it has the word of `encode i` and, on each bus that its operation code reads, the operand of `encode i`
(spec/30_encoding.md R39 to R44). -/

namespace Sys2Proof

@[simp] theorem extractOpc_cmdWord (arg : BitVec 2) (opc : BitVec 5) : (cmdWord arg opc).extractLsb' 0 5 = opc := by
  revert arg opc; decide

@[simp] theorem extractArg_cmdWord (arg : BitVec 2) (opc : BitVec 5) : (cmdWord arg opc).extractLsb' 5 2 = arg := by
  revert arg opc; decide

@[simp] theorem reservedBit_cmdWord (arg : BitVec 2) (opc : BitVec 5) : (cmdWord arg opc).getLsbD 7 = false := by
  revert arg opc; decide

theorem cmdWord_extract : ∀ w : Byte, w.getLsbD 7 = false → cmdWord (w.extractLsb' 5 2) (w.extractLsb' 0 5) = w := by
  decide

/-- A word with the reserved bit clear is its two other fields (R39). -/
theorem Command.cmdWord_arg_opc {c : Command} (h : c.rsv = false) : cmdWord c.arg c.opc = c.cmd :=
  cmdWord_extract c.cmd h

theorem rsv_encode (i : Instr) : (encode i).rsv = false := by
  cases i <;> exact reservedBit_cmdWord _ _

/-- The operation codes that do not read bus A: the mode settings, the reads and `display` (R44). -/
def Command.IgnoresA (c : Command) : Prop := c.opc = 0x10 ∨ c.opc = 0x11 ∨ 0x14 ≤ c.opc.toNat

/-- The operation codes that do not read bus B: `bitNot` and all from `isqrt` up (R44). -/
def Command.IgnoresB (c : Command) : Prop := c.opc = 0x09 ∨ 0x0E ≤ c.opc.toNat

/-- What an instruction takes is its operation code, its mode argument and the buses it reads. -/
theorem matchesCommand_iff (i : Instr) (c : Command) :
    i.matchesCommand c ↔ c.opc = (encode i).opc ∧ c.arg = (encode i).arg ∧
      (c.IgnoresA ∨ (encode i).a = c.a) ∧ (c.IgnoresB ∨ (encode i).b = c.b) := by
  have hbase (r : Base) : r = Base.ofCode c.arg ↔ c.arg = r.code :=
    ⟨fun h => by simp [h], fun h => by simp [h]⟩
  have hsize (w : WordSize) : w = WordSize.ofCode c.arg ↔ c.arg = w.code :=
    ⟨fun h => by simp [h], fun h => by simp [h]⟩
  cases i
  all_goals
    simp only [Instr.matchesCommand, encode, Command.opc_mk, Command.arg_mk, extractOpc_cmdWord, extractArg_cmdWord,
      hbase, hsize]
    refine and_congr_right fun ho => ?_
    simp [Command.IgnoresA, Command.IgnoresB, ho]

/-- Decoding answers `i` exactly for the commands that agree with `encode i` on the word and on every bus read. -/
theorem decode_eq_instr_iff {c : Command} {i : Instr} :
    decode c = .instr i ↔ (encode i).cmd = c.cmd ∧
      (c.IgnoresA ∨ (encode i).a = c.a) ∧ (c.IgnoresB ∨ (encode i).b = c.b) := by
  constructor
  · intro h
    obtain ⟨hr, hm⟩ := decode_eq_instr h
    obtain ⟨hopc, harg, hbuses⟩ := (matchesCommand_iff i c).1 hm
    refine ⟨?_, hbuses⟩
    rw [← Command.cmdWord_arg_opc hr, ← Command.cmdWord_arg_opc (rsv_encode i), hopc, harg]
  · rintro ⟨hcmd, hbuses⟩
    have hopc : c.opc = (encode i).opc := congrArg (BitVec.extractLsb' 0 5) hcmd.symm
    have harg : c.arg = (encode i).arg := congrArg (BitVec.extractLsb' 5 2) hcmd.symm
    have hr : c.rsv = false := (congrArg (BitVec.getLsbD · 7) hcmd.symm).trans (rsv_encode i)
    exact decode_of_matches hr ((matchesCommand_iff i c).2 ⟨hopc, harg, hbuses⟩)

theorem decode_encode (i : Instr) : decode (encode i) = .instr i :=
  decode_eq_instr_iff.2 ⟨rfl, .inr rfl, .inr rfl⟩

/-- An unread bus A may hold anything. -/
theorem decode_eq_instr_with_a {c : Command} (h : c.IgnoresA) (x : Word) (i : Instr) :
    decode { c with a := x } = .instr i ↔ decode c = .instr i := by
  have hx : ({ c with a := x } : Command).IgnoresA := h
  rw [decode_eq_instr_iff, decode_eq_instr_iff]
  exact and_congr_right fun _ => and_congr_left fun _ => iff_of_true (.inl hx) (.inl h)

/-- An unread bus B may hold anything. -/
theorem decode_eq_instr_with_b {c : Command} (h : c.IgnoresB) (x : Word) (i : Instr) :
    decode { c with b := x } = .instr i ↔ decode c = .instr i := by
  have hx : ({ c with b := x } : Command).IgnoresB := h
  rw [decode_eq_instr_iff, decode_eq_instr_iff]
  exact and_congr_right fun _ => and_congr_right fun _ => iff_of_true (.inl hx) (.inl h)

/-- Settles O11: a decoded command agrees with the encoding on each bus, or its operation code does not read it. -/
theorem decodeAndEncodeAgree : Obligations.DecodeAndEncodeAgree := by
  refine ⟨decode_encode, fun c i h => ?_⟩
  obtain ⟨hcmd, ha, hb⟩ := decode_eq_instr_iff.1 h
  exact ⟨hcmd, ha.symm.imp_right fun hA x => ((decode_eq_instr_with_a hA x i).2 h).trans h.symm,
    hb.symm.imp_right fun hB x => ((decode_eq_instr_with_b hB x i).2 h).trans h.symm⟩

end Sys2Proof
end

section
/-! The legal words are those that decode to an instruction, and the others are the reserved encodings
(spec/30_encoding.md R42, R43). -/

namespace Sys2Proof

/-- R43's four reserved encodings, over the fields of the command word. -/
def Command.HasReservedEncoding (c : Command) : Prop :=
  c.opc = 0 ∨ 0x17 ≤ c.opc.toNat ∨ c.rsv = true ∨ (c.arg ≠ 0 ∧ c.opc ≠ 0x10 ∧ c.opc ≠ 0x11)

theorem reservedBitClear_eq_false_iff (c : Command) : c.reservedBitClear = false ↔ c.rsv = true := by
  simp [Command.reservedBitClear]

theorem opcodeAssigned_eq_false_iff (c : Command) : c.opcodeAssigned = false ↔ c.opc = 0 ∨ 0x17 ≤ c.opc.toNat := by
  simp only [Command.opcodeAssigned, Bool.and_eq_false_iff, decide_eq_false_iff_not, ← BitVec.toNat_inj,
    BitVec.ofNat_eq_ofNat, BitVec.toNat_ofNat]
  omega

theorem argumentAllowed_eq_false_iff (c : Command) :
    c.argumentAllowed = false ↔ c.arg ≠ 0 ∧ c.opc ≠ 0x10 ∧ c.opc ≠ 0x11 := by
  simp only [Command.argumentAllowed, Bool.or_eq_false_iff, decide_eq_false_iff_not, ne_eq,
    ← BitVec.toNat_inj (y := 16#5), ← BitVec.toNat_inj (y := 17#5), BitVec.ofNat_eq_ofNat, BitVec.toNat_ofNat]
  exact and_comm

/-- Each of R42's three conditions fails by one of R43's reserved encodings, the second by two. -/
theorem hasReservedEncoding_iff (c : Command) : c.HasReservedEncoding ↔ c.legal = false := by
  rw [Command.legal, Bool.and_eq_false_iff, Bool.and_eq_false_iff, reservedBitClear_eq_false_iff,
    opcodeAssigned_eq_false_iff, argumentAllowed_eq_false_iff, Command.HasReservedEncoding]
  tauto

/-- Every encoding is a legal word (R42), constructor by constructor. -/
theorem legal_encode (i : Instr) : (encode i).legal = true := by
  cases i with
  | add a b => exact Laws.EncodesLegally.add a b
  | subtract a b => exact Laws.EncodesLegally.subtract a b
  | multiply a b => exact Laws.EncodesLegally.multiply a b
  | divide a b => exact Laws.EncodesLegally.divide a b
  | mod a b => exact Laws.EncodesLegally.mod a b
  | bitAnd a b => exact Laws.EncodesLegally.bitAnd a b
  | bitOr a b => exact Laws.EncodesLegally.bitOr a b
  | bitXor a b => exact Laws.EncodesLegally.bitXor a b
  | bitNot a => exact Laws.EncodesLegally.bitNot a
  | shl a b => exact Laws.EncodesLegally.shl a b
  | shr a b => exact Laws.EncodesLegally.shr a b
  | rol a b => exact Laws.EncodesLegally.rol a b
  | ror a b => exact Laws.EncodesLegally.ror a b
  | isqrt a => exact Laws.EncodesLegally.isqrt a
  | reciprocal a => exact Laws.EncodesLegally.reciprocal a
  | setBase r => exact Laws.EncodesLegally.setBase r
  | setWordSize w => exact Laws.EncodesLegally.setWordSize w
  | setValue a => exact Laws.EncodesLegally.setValue a
  | setRaw a => exact Laws.EncodesLegally.setRaw a
  | getValue => exact Laws.EncodesLegally.getValue
  | getRaw => exact Laws.EncodesLegally.getRaw
  | display => exact Laws.EncodesLegally.display

theorem legal_congr_cmd {c d : Command} (h : c.cmd = d.cmd) : c.legal = d.legal :=
  congrArg (fun w => (Command.mk w 0 0).legal) h

/-- A word that decodes to an instruction has the word of its encoding, which is legal. -/
theorem legal_of_decode_eq_instr {c : Command} {i : Instr} (h : decode c = .instr i) : c.legal = true :=
  (legal_congr_cmd (decode_eq_instr_iff.1 h).1).symm.trans (legal_encode i)

theorem illegal_of_decode_eq_reserved {c : Command} {why : Reserved} (h : decode c = .reserved why) :
    c.legal = false := by
  refine (hasReservedEncoding_iff c).1 ?_
  obtain hr | h0 | h17 | harg := decode_eq_reserved h
  · exact .inr (.inr (.inl hr))
  · exact .inl h0
  · exact .inr (.inl h17)
  · exact .inr (.inr (.inr harg))

theorem legal_iff_decode_instr (c : Command) : c.legal = true ↔ ∃ i, decode c = .instr i := by
  refine ⟨fun hl => ?_, fun ⟨i, h⟩ => legal_of_decode_eq_instr h⟩
  cases hd : decode c with
  | instr i => exact ⟨i, rfl⟩
  | reserved why => exact absurd (hl.symm.trans (illegal_of_decode_eq_reserved hd)) (by decide)

theorem illegal_iff_decode_reserved (c : Command) : c.legal = false ↔ ∃ why, decode c = .reserved why := by
  refine ⟨fun hl => ?_, fun ⟨why, h⟩ => illegal_of_decode_eq_reserved h⟩
  cases hd : decode c with
  | instr i => exact absurd (hl.symm.trans (legal_of_decode_eq_instr hd)) (by decide)
  | reserved why => exact ⟨why, rfl⟩

/-- Settles O8: R43's bullets negate R42's conditions, and decoding rejects exactly those words. -/
theorem reservedEncodingsAreTheIllegalOnes : Obligations.ReservedEncodingsAreTheIllegalOnes := fun c =>
  ⟨hasReservedEncoding_iff c, illegal_iff_decode_reserved c, legal_iff_decode_instr c⟩

end Sys2Proof
end

section
/-! The statements on which commands a step tells apart (spec/30_encoding.md R38, R44, R45). -/

namespace Sys2Proof.Machine

/-- The step sees of a command no more than which instruction, if any, it decodes to. -/
theorem step_congr_decode {c d : Command} (h : ∀ i, decode c = .instr i ↔ decode d = .instr i) (s : State)
    (rest : List HostInput) :
    step { s with inputs := .command c :: rest } = step { s with inputs := .command d :: rest } := by
  obtain hr | hr := Bool.eq_false_or_eq_true s.resetSeen
  · cases hc : decode c with
    | instr i =>
      have hd := (h i).1 hc
      exact (step_instr (s := { s with inputs := .command c :: rest }) rfl hr hc).trans
        (step_instr (s := { s with inputs := .command d :: rest }) rfl hr hd).symm
    | reserved why =>
      cases hd : decode d with
      | instr i => cases hc.symm.trans ((h i).2 hd)
      | reserved why' =>
        exact (step_reserved (s := { s with inputs := .command c :: rest }) rfl hr hc).trans
          (step_reserved (s := { s with inputs := .command d :: rest }) rfl hr hd).symm
  · exact (step_unreset (s := { s with inputs := .command c :: rest }) rfl hr).trans
      (step_unreset (s := { s with inputs := .command d :: rest }) rfl hr).symm

/-- Illegality is a matter of the word alone, so an illegal word decodes to no instruction whatever the buses hold. -/
theorem decode_instr_iff_of_illegal {c d : Command} (hcmd : c.cmd = d.cmd) (hl : c.legal = false) (i : Instr) :
    decode c = .instr i ↔ decode d = .instr i :=
  iff_of_false (fun h => absurd (hl.symm.trans (legal_of_decode_eq_instr h)) (by decide)) fun h =>
    absurd (hl.symm.trans ((legal_congr_cmd hcmd).trans (legal_of_decode_eq_instr h))) (by decide)

/-- Settles O47: two commands that differ in an unread bus decode to the same instruction, or are both illegal. -/
theorem unreadBusesHaveNoEffect : Obligations.UnreadBusesHaveNoEffect := by
  refine fun s c x rest => ⟨fun h => step_congr_decode ?_ s rest, fun h => step_congr_decode ?_ s rest⟩
  · obtain hB | hl : c.IgnoresB ∨ c.legal = false := or_assoc.2 h
    · exact fun i => (decode_eq_instr_with_b hB x i).symm
    · exact decode_instr_iff_of_illegal rfl hl
  · obtain hA | hl : c.IgnoresA ∨ c.legal = false := by simpa only [Command.IgnoresA, or_assoc] using h
    · exact fun i => (decode_eq_instr_with_a hA x i).symm
    · exact decode_instr_iff_of_illegal rfl hl

/-- Settles O5: the step on a presented command, as its law states it. -/
theorem stepRunsTheDecodedInstruction : Obligations.StepRunsTheDecodedInstruction :=
  fun _ _ _ _ hinputs hr hd => step_instr hinputs hr hd

theorem decode_of_decodeTableWord {nbits w : Nat} {i : Instr} (h : decodeTableWord nbits w = some i) :
    decode (Command.ofTableWord nbits w) = .instr i := by
  unfold decodeTableWord at h
  split at h
  · next j hd => cases h; exact hd
  · cases h

/-- Settles O6: the placed word is the next input, and taking it off leaves the inputs that were pending. -/
theorem fetchWordIsTheNextInstruction : Obligations.FetchWordIsTheNextInstruction :=
  fun s nbits w _ h => step_instr (s := s.withFetchWord nbits w) rfl rfl (decode_of_decodeTableWord h)

end Sys2Proof.Machine

namespace Sys2Proof

/-- Settles O9, by evaluating `legal` on each of the 256 words. -/
theorem exactlyTwentyEightWordsAreLegal : Obligations.ExactlyTwentyEightWordsAreLegal := by
  have hwords : ((List.range 256).filter fun n => (Command.mk (BitVec.ofNat 8 n) 0 0).legal) =
      (List.range 0x16).map (· + 1) ++ [0x30, 0x31, 0x50, 0x51, 0x70, 0x71] := by decide
  exact ⟨hwords, congrArg List.length hwords⟩

/-- Settles O10: each word has the operation code and the mode argument of its instruction. -/
theorem sampleWordsDecode : Obligations.SampleWordsDecode :=
  ⟨decode_of_matches rfl ⟨rfl, rfl, rfl, rfl⟩, decode_of_matches rfl ⟨rfl, rfl, rfl, rfl⟩,
    decode_of_matches rfl ⟨rfl, rfl, rfl, rfl⟩, decode_of_matches rfl ⟨rfl, rfl, rfl⟩,
    decode_of_matches rfl ⟨rfl, rfl⟩, decode_of_matches rfl ⟨rfl, rfl⟩, decode_of_matches rfl ⟨rfl, rfl⟩⟩

end Sys2Proof
end

section
/-! SUPPORT. The characters of a rendered text: each is a digit of its radix or the sign, and so a character that its
8-bit code determines and that separates nothing in a line of assembly (spec/45_rendering.md R79 to R84). -/

namespace Sys2Proof.Machine

/-- What holds of the digit characters of a radix holds of every character of a numeral. -/
theorem forall_mem_digits {p : Char → Prop} {radix : Nat} (hr : 1 < radix) (hp : ∀ d < radix, p (digitChar d))
    (n : Nat) : ∀ c ∈ digits n radix, p c := by
  intro c hc
  by_cases hn : n = 0
  · rw [hn, digits_zero, List.mem_singleton] at hc
    exact hc ▸ hp 0 (by omega)
  · rw [digits_eq hr hn, List.mem_map] at hc
    obtain ⟨d, hd, rfl⟩ := hc
    exact hp d (Nat.digits_lt_base hr (List.mem_reverse.1 hd))

theorem forall_mem_decText {p : Char → Prop} (hsign : p '-') (hp : ∀ d < 10, p (digitChar d)) (x : Int) :
    ∀ c ∈ decText x, p c := by
  unfold decText
  split
  · exact List.forall_mem_cons.2 ⟨hsign, forall_mem_digits (by decide) hp _⟩
  · exact forall_mem_digits (by decide) hp _

theorem forall_mem_render {p : Char → Prop} (hsign : p '-') (hp : ∀ d < 16, p (digitChar d)) (s : State) :
    ∀ c ∈ render s, p c := by
  unfold render
  split
  · exact forall_mem_decText hsign (fun d hd => hp d (by omega)) _
  all_goals exact forall_mem_digits (by decide) (fun d hd => hp d (by omega)) _

/-- No character of a text is cut off by its 8-bit code (R84). -/
theorem toNat_charCode_of_mem_render {s : State} {c : Char} (hc : c ∈ render s) : (charCode c).toNat = c.toNat := by
  have hlt : c.toNat < 2 ^ 8 := forall_mem_render (p := fun c => c.toNat < 2 ^ 8) (by decide) (by decide) s c hc
  rw [charCode, BitVec.toNat_ofNat, Nat.mod_eq_of_lt hlt]

end Sys2Proof.Machine
end

section
/-! The statement on RESULT and the text of every response (spec/30_encoding.md R46). -/

namespace Sys2Proof.Machine

theorem noText_respond_nil (s : State) (st : Status) (v : Word) : NoText (respond s st v []) :=
  ⟨rfl, fun i => textPort_padded [] i i.isLt (Nat.zero_le _)⟩

theorem statusO_respond_ok (s : State) (v : Word) (t : List Char) : statusO (respond s .ok v t) = 0 := rfl

theorem statusO_respond_error (s : State) (k : ErrorKind) (v : Word) (t : List Char) :
    statusO (respond s (.error k) v t) ≠ 0 := by
  change errorCode k ≠ 0
  cases k <;> decide

/-- `getRaw` answers with the unsigned reading of the register (R77). -/
theorem toNat_resultOf_getRaw (s : State) : (resultOf .getRaw s).toNat = s.raw.toNat % 2 ^ s.ws.bits :=
  toNat_and_mask s.ws s.raw

/-- Every other command answers with the signed reading (10_state.md R20). -/
theorem toInt_resultOf {i : Instr} (h : i ≠ .getRaw) (s : State) :
    (resultOf i s).toInt = (s.raw.toNat : Int).bmod (2 ^ s.ws.bits) := by
  cases i with
  | getRaw => exact absurd rfl h
  | _ => exact toInt_signedResult s

/-- A rendered character stands at its own place in the text port. -/
theorem toNat_textPort_render {s : State} {j : Fin 64} {c : Char} (h : (render s)[j.val]? = some c) :
    (textPort (render s))[j].toNat = c.toNat := by
  have hcode : (textPort (render s))[j] = charCode c := by
    rw [Fin.getElem_fin, textPort_getElem _ _ j.isLt, h]
    rfl
  rw [hcode, toNat_charCode_of_mem_render (List.mem_of_getElem? h)]

/-- Settles O49: a completed command's response is read off the state its rule leaves, whose register, modes and
rendering the response does not touch; a failed or illegal one answers 0 and no text. -/
theorem resultIsTheRegisterAfterTheCommand : Obligations.ResultIsTheRegisterAfterTheCommand := by
  constructor
  · intro i s t h
    obtain ⟨u, -, rfl⟩ | ⟨k, -, rfl⟩ := exec_cases h
    · refine ⟨fun _ => ⟨?_, fun hi => toInt_resultOf hi u, fun hi => ?_, ?_⟩,
        fun hst => absurd (statusO_respond_ok ..) hst⟩
      · rintro rfl
        exact toNat_resultOf_getRaw u
      · rw [textOf_of_ne_display hi]
        exact noText_respond_nil ..
      · rintro rfl
        exact ⟨toNat_respond_textLen _ _ _ (presentable_render u).1, fun j c hc => toNat_textPort_render hc⟩
    · exact ⟨fun hst => absurd hst (statusO_respond_error s k 0 []), fun _ => ⟨rfl, noText_respond_nil ..⟩⟩
  · intro s t c rest hinputs hl h
    obtain ⟨hnil, -⟩ | ⟨r, hx, -⟩ | ⟨d, r, i, hx, -, hd, -⟩ | ⟨d, r, why, -, -, -, rfl⟩ := step_cases h
    · cases hinputs.symm.trans hnil
    · cases hinputs.symm.trans hx
    · cases hinputs.symm.trans hx
      exact absurd (hl.symm.trans (legal_of_decode_eq_instr hd)) (by decide)
    · exact ⟨rfl, noText_respond_nil ..⟩

end Sys2Proof.Machine
end

section
/-! The assembler on the lines that `assemblyOf` writes, by their shape (spec/30_encoding.md R49). -/

namespace Sys2Proof.Machine

theorem assembleTwo_operandText (f : Word → Word → Instr) (a b : Word) :
    assembleTwo f [operandText a, operandText b] = some (encode (f a b)) := by
  simp only [assembleTwo, readOperand_operandText]

theorem assembleOne_operandText (f : Word → Instr) (a : Word) :
    assembleOne f [operandText a] = some (encode (f a)) := by
  simp only [assembleOne, readOperand_operandText, Option.map_some]

theorem readBase_baseText (r : Base) : readBase (baseText r) = some r := by
  cases r <;> decide

theorem readWordSize_wordSizeText (w : WordSize) : readWordSize (wordSizeText w) = some w := by
  cases w <;> decide

/-- A mnemonic of two operands, in the line that names it. -/
theorem assembleLine_lineTwo {m : List Char} {f : Word → Word → Instr} (hm : m.all plainChar = true) (hm0 : m ≠ [])
    (hf : ∀ ops, assembleParts m ops = assembleTwo f ops) (a b : Word) :
    assembleLine (lineTwo m a b) = some (encode (f a b)) := by
  rw [lineTwo, assembleLine_two _ _ _ (List.all_eq_true.1 hm) hm0 (plainChar_operandText a) (operandText_ne_nil a)
    (plainChar_operandText b) (operandText_ne_nil b), hf, assembleTwo_operandText]

/-- A mnemonic of one operand, in the line that names it. -/
theorem assembleLine_lineOne {m : List Char} {f : Word → Instr} (hm : m.all plainChar = true) (hm0 : m ≠ [])
    (hf : ∀ ops, assembleParts m ops = assembleOne f ops) (a : Word) :
    assembleLine (lineOne m a) = some (encode (f a)) := by
  rw [lineOne, assembleLine_one _ _ (List.all_eq_true.1 hm) hm0 (plainChar_operandText a) (operandText_ne_nil a), hf,
    assembleOne_operandText]

theorem assembleLine_setBase (r : Base) : assembleLine (assemblyOf (.setBase r)) = some (encode (.setBase r)) := by
  have hplain : (baseText r).all plainChar = true := by cases r <;> rfl
  have hne : baseText r ≠ [] := by cases r <;> decide
  calc assembleLine (assemblyOf (.setBase r))
      = assembleSetBase [baseText r] :=
        assembleLine_one ['s', 'e', 't', 'B', 'a', 's', 'e'] _ (List.all_eq_true.1 rfl) (by decide)
          (List.all_eq_true.1 hplain) hne
    _ = some (encode (.setBase r)) := by rw [assembleSetBase, readBase_baseText, Option.map_some]

theorem assembleLine_setWordSize (w : WordSize) :
    assembleLine (assemblyOf (.setWordSize w)) = some (encode (.setWordSize w)) := by
  have hplain : (wordSizeText w).all plainChar = true := by cases w <;> rfl
  have hne : wordSizeText w ≠ [] := by cases w <;> decide
  calc assembleLine (assemblyOf (.setWordSize w))
      = assembleSetWordSize [wordSizeText w] :=
        assembleLine_one ['s', 'e', 't', 'W', 'o', 'r', 'd', 'S', 'i', 'z', 'e'] _ (List.all_eq_true.1 rfl) (by decide)
          (List.all_eq_true.1 hplain) hne
    _ = some (encode (.setWordSize w)) := by rw [assembleSetWordSize, readWordSize_wordSizeText, Option.map_some]

/-- Settles O57, by the shape of each instruction's line. -/
theorem assemblyOfAnInstructionAssemblesToIt : Obligations.AssemblyOfAnInstructionAssemblesToIt := by
  intro i
  cases i with
  | setBase r => exact assembleLine_setBase r
  | setWordSize w => exact assembleLine_setWordSize w
  | getValue | getRaw | display => exact assembleLine_bare _ (List.all_eq_true.1 rfl)
  | bitNot a | isqrt a | reciprocal a | setValue a | setRaw a =>
    exact assembleLine_lineOne rfl (by decide) (fun _ => rfl) a
  | add a b | subtract a b | multiply a b | divide a b | mod a b | bitAnd a b | bitOr a b | bitXor a b | shl a b
  | shr a b | rol a b | ror a b => exact assembleLine_lineTwo rfl (by decide) (fun _ => rfl) a b

end Sys2Proof.Machine
end

section
/-! The statement on decimal operands: the numerals that the rendering writes are those the assembler reads
(spec/30_encoding.md R49, 45_rendering.md R80, R81). -/

namespace Sys2Proof.Machine

theorem digitValue_digitChar : ∀ d < 16, digitValue (digitChar d) = some d := by decide

/-- Reading digits of a radix takes them in by Horner's scheme. -/
theorem readDigits_map_digitChar {radix : Nat} (hr : radix ≤ 16) {ds : List Nat} (hds : ∀ d ∈ ds, d < radix)
    (acc : Nat) :
    readDigits radix (ds.map digitChar) acc = some (ds.foldl (fun acc d => acc * radix + d) acc) := by
  induction ds generalizing acc with
  | nil => rfl
  | cons d ds ih =>
    obtain ⟨hd, hrest⟩ := List.forall_mem_cons.1 hds
    simp only [List.map_cons, readDigits, digitValue_digitChar d (hd.trans_le hr), if_pos hd, List.foldl_cons, ih hrest]

/-- Horner's scheme over the digits of a number gives it back. -/
theorem foldl_reverse_digits (radix n : Nat) :
    (Nat.digits radix n).reverse.foldl (fun acc d => acc * radix + d) 0 = n := by
  rw [List.foldl_reverse]
  conv_rhs => rw [← Nat.ofDigits_digits radix n, Nat.ofDigits_eq_foldr]
  simp only [Nat.cast_id, Nat.mul_comm radix, Nat.add_comm]

/-- The assembler reads a rendered numeral as its number. -/
theorem readNumber_digits {radix : Nat} (hr : 1 < radix) (hr' : radix ≤ 16) (n : Nat) :
    readNumber radix (digits n radix) = some n := by
  rw [readNumber, if_neg (by simpa using digits_ne_nil hr)]
  by_cases hn : n = 0
  · subst hn
    simp [digits_zero, readDigits, digitValue, show 0 < radix by omega]
  · rw [digits_eq hr hn, readDigits_map_digitChar hr' fun d hd => Nat.digits_lt_base hr (List.mem_reverse.1 hd),
      foldl_reverse_digits]

/-- A text without `x` and `-` is read as a decimal numeral without a sign. -/
theorem readOperand_of_unsigned {t : List Char} {n : Nat} (ht : ∀ c ∈ t, c ≠ 'x' ∧ c ≠ '-')
    (hn : readNumber 10 t = some n) (hlt : n < 2 ^ 64) : readOperand t = some (BitVec.ofNat 64 n) := by
  unfold readOperand
  split
  · exact absurd rfl (ht 'x' (by simp)).1
  · exact absurd rfl (ht '-' (by simp)).2
  · rw [hn]
    exact if_pos hlt

theorem readOperand_negative {t : List Char} {n : Nat} (hn : readNumber 10 t = some n) (hle : n ≤ 2 ^ 63) :
    readOperand ('-' :: t) = some (BitVec.ofInt 64 (-(n : Int))) := by
  simp only [readOperand, hn, if_pos hle]

theorem readOperand_decText {x : Int} (hlo : -2 ^ 63 ≤ x) (hhi : x < 2 ^ 64) :
    readOperand (decText x) = some (BitVec.ofInt 64 x) := by
  unfold decText
  split
  · next hneg =>
    rw [readOperand_negative (readNumber_digits (by decide) (by decide) _) (by omega),
      Int.toNat_of_nonneg (by omega), Int.neg_neg]
  · next hpos =>
    rw [readOperand_of_unsigned (forall_mem_digits (by decide) (by decide) _)
      (readNumber_digits (by decide) (by decide) _) (by omega), ← BitVec.ofInt_natCast,
      Int.toNat_of_nonneg (by omega)]

theorem decText_ne_nil (x : Int) : decText x ≠ [] := by
  unfold decText
  split
  · exact List.cons_ne_nil _ _
  · exact digits_ne_nil (by decide)

/-- Settles O58: the line is a mnemonic with one operand, which the assembler reads as the integer it was written
from. -/
theorem decimalLiteralsAssemble : Obligations.DecimalLiteralsAssemble := by
  intro x hlo hhi
  have hplain : ∀ c ∈ decText x, plainChar c = true := forall_mem_decText (by decide) (by decide) x
  calc assembleLine ("setValue ".toList ++ decText x)
      = assembleOne .setValue [decText x] :=
        assembleLine_one "setValue".toList _ (List.all_eq_true.1 rfl) (by decide) hplain (decText_ne_nil x)
    _ = some (encode (.setValue (BitVec.ofInt 64 x))) := by
        rw [assembleOne, readOperand_decText hlo hhi, Option.map_some]
    _ = some ⟨0x12, BitVec.ofInt 64 x, 0⟩ := rfl

end Sys2Proof.Machine
end

section
/-! How a command that stores an integer, and one that raises an error, end for the host (spec/00_scope.md R12,
30_encoding.md R46, 60_exceptions.md R89, R90). -/

namespace Sys2Proof.Machine

/-- A rule that ends in `store(r)` completes as R12 and R46 say, for every command but the two whose response is not
the signed register alone. -/
theorem exec_stores {i : Instr} {s : State} {r : Int} (h : ruleOf i s = .done (store s r))
    (hget : i ≠ .getRaw) (hdisplay : i ≠ .display) : ∃ t, exec i s = .next t ∧ Stores s t r := by
  refine ⟨_, exec_of_done h, ?_⟩
  have hraw : ((pat s.ws r).toNat : Int) = r % 2 ^ s.ws.bits := by
    rw [toNat_pat, Int.toNat_of_nonneg (Int.emod_nonneg r (by positivity))]
  have hresult : (resultOf i (store s r)).toInt = r.bmod (2 ^ s.ws.bits) := by
    rw [toInt_resultOf hget, store_raw, store_ws, hraw]
    exact_mod_cast Int.emod_bmod r (2 ^ s.ws.bits)
  rw [textOf_of_ne_display hdisplay]
  exact ⟨hraw, hresult, statusO_respond_ok .., noText_respond_nil .., ⟨rfl, rfl⟩, ⟨rfl, rfl⟩⟩

/-- A rule that raises answers with the code of the error and leaves the rest as it was. -/
theorem exec_fails {i : Instr} {s : State} {k : ErrorKind} (h : ruleOf i s = .raised k) :
    ∃ t, exec i s = .next t ∧ Fails s t (errorCode k) :=
  ⟨_, exec_of_raised h, rfl, ⟨rfl, rfl⟩, rfl, rfl, noText_respond_nil .., ⟨rfl, rfl⟩⟩

end Sys2Proof.Machine
end

section
/-! The statements on the arithmetic commands (spec/40_arithmetic.md R52 to R56). -/

namespace Sys2Proof.Machine

/-- Settles O14: the rule of `add` stores the exact sum. -/
theorem addWrapsModuloTheWordSize : Obligations.AddWrapsModuloTheWordSize := fun a b _ =>
  ⟨decode_encode (.add a b), exec_stores rfl nofun nofun⟩

/-- Settles O15: the rule of `subtract` stores the exact difference. -/
theorem subtractWrapsModuloTheWordSize : Obligations.SubtractWrapsModuloTheWordSize := fun a b _ =>
  ⟨decode_encode (.subtract a b), exec_stores rfl nofun nofun⟩

/-- Settles O16: the rule of `multiply` stores the exact product. -/
theorem multiplyKeepsTheLowWordOfTheProduct : Obligations.MultiplyKeepsTheLowWordOfTheProduct := fun a b _ =>
  ⟨decode_encode (.multiply a b), exec_stores rfl nofun nofun⟩

theorem toInt_eq_zero_iff (p : Word) : p.toInt = 0 ↔ p = 0 :=
  BitVec.toInt_inj (y := 0)

/-- The remainder is smaller than the divisor (00_scope.md R11). -/
theorem abs_trem_lt (x : Int) {y : Int} (hy : y ≠ 0) : |trem x y| < |y| := by
  rw [trem_eq, Int.abs_eq_natAbs, Int.natAbs_tmod, Int.abs_eq_natAbs]
  exact_mod_cast Nat.mod_lt _ (Int.natAbs_pos.2 hy)

/-- A positive remainder has the sign of the dividend (R56). -/
theorem pos_of_trem_pos {x y : Int} (h : 0 < trem x y) : 0 < x := by
  by_contra hx
  have hnonneg : 0 ≤ Int.tmod (-x) y := Int.tmod_nonneg y (by omega)
  rw [Int.neg_tmod, ← trem_eq] at hnonneg
  omega

/-- A negative remainder has the sign of the dividend (R56). -/
theorem neg_of_trem_neg {x y : Int} (h : trem x y < 0) : x < 0 := by
  by_contra hx
  have hnonneg : 0 ≤ Int.tmod x y := Int.tmod_nonneg y (by omega)
  rw [← trem_eq] at hnonneg
  omega

/-- `tdiv` and `trem` meet the four conditions that fix a truncated division (R11, R55, R56). -/
theorem tdiv_trem_spec (x : Int) {y : Int} (hy : y ≠ 0) :
    x = y * tdiv x y + trem x y ∧ |trem x y| < |y| ∧ (0 < trem x y → 0 < x) ∧ (trem x y < 0 → x < 0) :=
  ⟨by rw [trem]; omega, abs_trem_lt x hy, pos_of_trem_pos, neg_of_trem_neg⟩

theorem ruleOf_divide (a b : Word) (s : State) :
    ruleOf (.divide a b) s =
      if b = 0 then .raised .divisionByZero else .done (store s (tdiv a.toInt b.toInt)) := by
  simp only [ruleOf, divideRule, s64, toInt_eq_zero_iff]

theorem ruleOf_mod (a b : Word) (s : State) :
    ruleOf (.mod a b) s =
      if b = 0 then .raised .divisionByZero else .done (store s (trem a.toInt b.toInt)) := by
  simp only [ruleOf, modRule, s64, toInt_eq_zero_iff]

/-- Settles O17: a zero divisor raises, and any other stores the quotient, with the remainder of R11 as `r`. -/
theorem divideTruncatesTowardZero : Obligations.DivideTruncatesTowardZero := by
  intro a b s
  refine ⟨decode_encode (.divide a b), fun hb => ?_, fun hb => ?_⟩
  · exact exec_fails (k := .divisionByZero) ((ruleOf_divide a b s).trans (if_pos hb))
  · obtain ⟨t, hexec, hstores⟩ := exec_stores ((ruleOf_divide a b s).trans (if_neg hb)) nofun nofun
    obtain ⟨hsplit, hlt, hpos, hneg⟩ := tdiv_trem_spec a.toInt (mt (toInt_eq_zero_iff b).1 hb)
    exact ⟨t, _, _, hexec, hsplit, hlt, hpos, hneg, hstores⟩

/-- Settles O18: a zero divisor raises, and any other stores the remainder, with the quotient of R11 as `q`. -/
theorem modFollowsTheDividend : Obligations.ModFollowsTheDividend := by
  intro a b s
  refine ⟨decode_encode (.mod a b), fun hb => ?_, fun hb => ?_⟩
  · exact exec_fails (k := .divisionByZero) ((ruleOf_mod a b s).trans (if_pos hb))
  · obtain ⟨t, hexec, hstores⟩ := exec_stores ((ruleOf_mod a b s).trans (if_neg hb)) nofun nofun
    obtain ⟨hsplit, hlt, hpos, hneg⟩ := tdiv_trem_spec a.toInt (mt (toInt_eq_zero_iff b).1 hb)
    exact ⟨t, _, _, hexec, hsplit, hlt, hpos, hneg, hstores⟩

end Sys2Proof.Machine
end

section
/-! How a command that writes the register bit by bit ends for the host (spec/00_scope.md R10, 30_encoding.md R46). -/

namespace Sys2Proof.Machine

/-- Every command but `getRaw` answers with the signed register (30_encoding.md R46). -/
theorem resultOf_of_ne_getRaw {i : Instr} (h : i ≠ .getRaw) (s : State) : resultOf i s = signedResult s := by
  cases i with
  | getRaw => exact absurd rfl h
  | _ => rfl

/-- The signed register, bit by bit: bit `w-1` fills the bits from `w` up (10_state.md R20). -/
theorem signedResult_getLsbD (s : State) {j : Nat} (hj : j < 64) : (signedResult s).getLsbD j =
    if j < s.ws.bits then s.raw.getLsbD j else s.raw.getLsbD (s.ws.bits - 1) :=
  sext64_getLsbD s.ws s.raw j hj

/-- A rule that writes `raw` bit by bit, with zeros from `w` up, completes as R10 and R46 say, for every command but
the two whose response is not the signed register alone. -/
theorem exec_storesBits {i : Instr} {s : State} {v : Word} {f : Nat → Bool} (h : ruleOf i s = .done (setRawField s v))
    (hv : ∀ j < 64, v.getLsbD j = (decide (j < s.ws.bits) && f j)) (hget : i ≠ .getRaw) (hdisplay : i ≠ .display) :
    ∃ t, exec i s = .next t ∧ StoresBits s t f := by
  have hlow : ∀ j < s.ws.bits, v.getLsbD j = f j := fun j hj => by
    rw [hv j (hj.trans_le s.ws.bits_le), decide_eq_true hj, Bool.true_and]
  have hresult : ∀ j < 64, (resultOf i (setRawField s v)).getLsbD j =
      if j < s.ws.bits then f j else f (s.ws.bits - 1) := fun j hj => by
    rw [resultOf_of_ne_getRaw hget, signedResult_getLsbD _ hj, setRawField_raw, setRawField_ws]
    split
    · next hlt => exact hlow j hlt
    · exact hlow _ (Nat.sub_one_lt s.ws.bits_pos.ne')
  refine ⟨_, exec_of_done h, ?_⟩
  rw [textOf_of_ne_display hdisplay]
  exact ⟨hv, hresult, statusO_respond_ok .., noText_respond_nil .., ⟨rfl, rfl⟩, ⟨rfl, rfl⟩⟩

/-- A pattern that the rule masks to the word size counts with its bits below `w` (41_bitwise.md R58). -/
theorem exec_storesBits_of_and_mask {i : Instr} {s : State} {p : Word} {f : Nat → Bool}
    (h : ruleOf i s = .done (setRawField s (p &&& mask s.ws))) (hp : ∀ j < 64, p.getLsbD j = f j)
    (hget : i ≠ .getRaw) (hdisplay : i ≠ .display) : ∃ t, exec i s = .next t ∧ StoresBits s t f :=
  exec_storesBits h (fun j hj => by rw [and_mask_getLsbD, hp j hj]) hget hdisplay

end Sys2Proof.Machine
end

section
/-! The statements on the bitwise commands (spec/41_bitwise.md R59 to R62). -/

namespace Sys2Proof.Machine

/-- Settles O19: the rule of `bitAnd` masks the conjunction of the operands. -/
theorem bitAndWorksBitByBit : Obligations.BitAndWorksBitByBit := fun a b _ =>
  ⟨decode_encode (.bitAnd a b), exec_storesBits_of_and_mask rfl (fun _ _ => BitVec.getLsbD_and) nofun nofun⟩

/-- Settles O20: the rule of `bitOr` masks the disjunction of the operands. -/
theorem bitOrWorksBitByBit : Obligations.BitOrWorksBitByBit := fun a b _ =>
  ⟨decode_encode (.bitOr a b), exec_storesBits_of_and_mask rfl (fun _ _ => BitVec.getLsbD_or) nofun nofun⟩

/-- Settles O21: the rule of `bitXor` masks the exclusive disjunction of the operands. -/
theorem bitXorWorksBitByBit : Obligations.BitXorWorksBitByBit := fun a b _ =>
  ⟨decode_encode (.bitXor a b), exec_storesBits_of_and_mask rfl (fun _ _ => BitVec.getLsbD_xor) nofun nofun⟩

/-- The complement of a pattern is `-p - 1` in two's complement (00_scope.md R9). -/
theorem toInt_not_eq (p : Word) : (~~~p).toInt = -p.toInt - 1 := by
  have hlt := p.isLt
  rw [BitVec.toInt_eq_toNat_cond, BitVec.toInt_eq_toNat_cond, BitVec.toNat_not]
  omega

/-- The complement within the word is what storing the integer `-a - 1` leaves (R62). -/
theorem ruleOf_bitNot (a : Word) (s : State) : ruleOf (.bitNot a) s = .done (store s (-a.toInt - 1)) := by
  have hpat : pat s.ws (-a.toInt - 1) = ~~~a &&& mask s.ws := by rw [← toInt_not_eq, pat_toInt]
  exact congrArg (fun v => RuleResult.done (setRawField s v)) hpat.symm

/-- Settles O22: the rule of `bitNot` masks the complement of the operand, which is also the integer `-a - 1` stored. -/
theorem bitNotComplementsWithinTheWord : Obligations.BitNotComplementsWithinTheWord := by
  intro a b s
  have hdecode : decode { encode (.bitNot a) with b := b } = .instr (.bitNot a) :=
    (decode_eq_instr_with_b (.inl rfl) b _).2 (decode_encode (.bitNot a))
  obtain ⟨t, hexec, hbits⟩ : ∃ t, exec (.bitNot a) s = .next t ∧ StoresBits s t fun j => !a.getLsbD j :=
    exec_storesBits_of_and_mask rfl (fun _ hj => by simp [hj]) nofun nofun
  obtain ⟨u, hexec', -, hresult, -⟩ := exec_stores (ruleOf_bitNot a s) nofun nofun
  obtain rfl : t = u := Host.Outcome.next.inj (hexec.symm.trans hexec')
  exact ⟨hdecode, t, hexec, hbits, hresult⟩

end Sys2Proof.Machine
end

section
/-! SUPPORT. What the shift and rotate patterns are, bit by bit, as functions of the unmasked operand
(spec/42_shift_rotate.md R63 to R68). -/

namespace Sys2Proof.Machine

/-- Masking the value before a shift to the left changes nothing that the mask after it keeps (R65). -/
theorem shlPattern_shiftValue (ws : WordSize) (a : Word) (k : Nat) :
    shlPattern ws (shiftValue ws a) k = (a <<< k) &&& mask ws := by
  refine BitVec.eq_of_getLsbD_eq fun j hj => ?_
  rw [shlPattern, and_mask_getLsbD, and_mask_getLsbD, BitVec.getLsbD_shiftLeft, BitVec.getLsbD_shiftLeft,
    shiftValue_getLsbD]
  by_cases hlt : j < ws.bits
  · simp [show j - k < ws.bits by omega]
  · simp [hlt]

theorem shlPattern_getLsbD (ws : WordSize) (a : Word) (k : Nat) {j : Nat} (hj : j < 64) :
    (shlPattern ws (shiftValue ws a) k).getLsbD j =
      (decide (j < ws.bits) && (decide (k ≤ j) && a.getLsbD (j - k))) := by
  rw [shlPattern_shiftValue, and_mask_getLsbD, BitVec.getLsbD_shiftLeft]
  simp [hj, ← decide_not]

theorem shrPattern_getLsbD (ws : WordSize) (a : Word) (k j : Nat) :
    (shrPattern (shiftValue ws a) k).getLsbD j =
      (decide (j < ws.bits) && (decide (j + k < ws.bits) && a.getLsbD (j + k))) := by
  rw [shrPattern, BitVec.getLsbD_ushiftRight, shiftValue_getLsbD, Nat.add_comm k j]
  by_cases hlt : j + k < ws.bits
  · simp [show j < ws.bits by omega]
  · simp [hlt]

/-- A rotation to the right takes bit `j` from bit `j + k` while that is in the word, and else from `w` below it
(R68). -/
theorem rorPattern_getLsbD {ws : WordSize} {k : Nat} (hk : k < ws.bits) (a : Word) (j : Nat) :
    (rorPattern ws (shiftValue ws a) k).getLsbD j = (decide (j < ws.bits) && a.getLsbD ((j + k) % ws.bits)) := by
  have hle := ws.bits_le
  by_cases hj : j < ws.bits
  swap
  · have hmasked := rorPattern_masked (shiftValue_masked ws a) k
    rw [← and_mask_of_masked hmasked, and_mask_getLsbD, decide_eq_false hj, Bool.false_and, Bool.false_and]
  by_cases h0 : k = 0
  · rw [rorPattern, if_pos h0, shiftValue_getLsbD, h0, Nat.add_zero, Nat.mod_eq_of_lt hj]
  rw [rorPattern, if_neg h0, and_mask_getLsbD, BitVec.getLsbD_or, BitVec.getLsbD_ushiftRight,
    BitVec.getLsbD_shiftLeft, shiftValue_getLsbD, shiftValue_getLsbD]
  by_cases hlt : j + k < ws.bits
  · have hleft : j < ws.bits - k := by omega
    simp [hj, hlt, hleft, Nat.mod_eq_of_lt, Nat.add_comm k j]
  · have hwrap : (j + k) % ws.bits = j - (ws.bits - k) := by
      rw [Nat.mod_eq_sub_mod (by omega), Nat.mod_eq_of_lt (by omega)]
      omega
    have hleft : ¬ j < ws.bits - k := by omega
    have hright : ¬ k + j < ws.bits := by omega
    have hsrc : j - (ws.bits - k) < ws.bits := by omega
    simp [hj, hwrap, hleft, hright, hsrc, hj.trans_le hle]

/-- A rotation to the left by `k` is one to the right by `w - k` (R69). -/
theorem rolPattern_eq_rorPattern {ws : WordSize} {k : Nat} (h0 : k ≠ 0) (hk : k < ws.bits) (v : Word) :
    rolPattern ws v k = rorPattern ws v (ws.bits - k) := by
  rw [rolPattern, rorPattern, if_neg h0, if_neg (by omega), Nat.sub_sub_self hk.le, BitVec.or_comm]

/-- A rotation to the left brings to bit `j` the bit `k` below it, modulo `w` (R67). -/
theorem rolPattern_getLsbD {ws : WordSize} {k : Nat} (hk : k < ws.bits) (a : Word) (j : Nat) :
    (rolPattern ws (shiftValue ws a) k).getLsbD j =
      (decide (j < ws.bits) && a.getLsbD ((j + (ws.bits - k)) % ws.bits)) := by
  by_cases h0 : k = 0
  · rw [rolPattern, if_pos h0, shiftValue_getLsbD, h0, Nat.sub_zero, Nat.add_mod_right]
    by_cases hj : j < ws.bits
    · rw [Nat.mod_eq_of_lt hj]
    · simp [hj]
  · rw [rolPattern_eq_rorPattern h0 hk, rorPattern_getLsbD (by omega)]

end Sys2Proof.Machine
end

section
/-! The statements on the four shift and rotate commands (spec/42_shift_rotate.md R65 to R68). -/

namespace Sys2Proof.Machine

/-- Settles O23: the rule of `shl` shifts to the left and masks. -/
theorem shlFillsWithZerosFromTheRight : Obligations.ShlFillsWithZerosFromTheRight := fun a b s =>
  ⟨decode_encode (.shl a b), exec_storesBits rfl (fun _ hj => shlPattern_getLsbD s.ws a _ hj) nofun nofun⟩

/-- Settles O24: the rule of `shr` shifts the masked operand to the right. -/
theorem shrFillsWithZerosFromTheLeft : Obligations.ShrFillsWithZerosFromTheLeft := fun a b s =>
  ⟨decode_encode (.shr a b), exec_storesBits rfl (fun j _ => shrPattern_getLsbD s.ws a _ j) nofun nofun⟩

/-- Settles O25: the amount is below `w`, where the rotation to the left is known bit by bit. -/
theorem rolRotatesWithinTheWord : Obligations.RolRotatesWithinTheWord := fun a b s =>
  ⟨decode_encode (.rol a b),
    exec_storesBits rfl (fun j _ => rolPattern_getLsbD (shiftAmount_lt s.ws b) a j) nofun nofun⟩

/-- Settles O26: the amount is below `w`, where the rotation to the right is known bit by bit. -/
theorem rorRotatesWithinTheWord : Obligations.RorRotatesWithinTheWord := fun a b s =>
  ⟨decode_encode (.ror a b),
    exec_storesBits rfl (fun j _ => rorPattern_getLsbD (shiftAmount_lt s.ws b) a j) nofun nofun⟩

end Sys2Proof.Machine
end

section
/-! The laws of the rotates (spec/42_shift_rotate.md R69): both move the bit at `(j + d) mod w` to bit `j`, for a
displacement `d` that depends on the amount. -/

namespace Sys2Proof.Machine

/-- From `s` to `t` a rotate completed: bit `(j + d) mod w` of `v` went to bit `j` (R67, R68). -/
abbrev Rotates (s t : State) (v : Word) (d : Nat) : Prop :=
  StoresBits s t fun j => v.getLsbD ((j + d) % s.ws.bits)

theorem exec_rol_rotates (v n : Word) (s : State) :
    ∃ t, exec (.rol v n) s = .next t ∧ Rotates s t v (s.ws.bits - n.toNat % s.ws.bits) :=
  (rolRotatesWithinTheWord v n s).2

theorem exec_ror_rotates (v n : Word) (s : State) :
    ∃ t, exec (.ror v n) s = .next t ∧ Rotates s t v (n.toNat % s.ws.bits) :=
  (rorRotatesWithinTheWord v n s).2

theorem Rotates.ws_eq {s t : State} {v : Word} {d : Nat} (h : Rotates s t v d) : t.ws = s.ws := by
  obtain ⟨-, -, -, -, ⟨hws, -⟩, -⟩ := h
  exact hws

/-- Two displacements that make up the word size bring each bit back to its place. -/
theorem add_mod_add_mod_self {w d e j : Nat} (hde : d + e = w) (hj : j < w) : ((j + d) % w + e) % w = j := by
  rw [Nat.mod_add_mod, Nat.add_assoc, hde, Nat.add_mod_right, Nat.mod_eq_of_lt hj]

/-- Rotating the RESULT of a rotate by the rest of the word size gives the value reduced to the word. -/
theorem Rotates.raw_of_back {s t u : State} {v : Word} {d e : Nat} (ht : Rotates s t v e)
    (hu : Rotates t u t.result d) (hde : d + e = s.ws.bits) : u.raw = v &&& mask s.ws := by
  have hws := ht.ws_eq
  obtain ⟨-, hresult, -⟩ := ht
  obtain ⟨hraw, -⟩ := hu
  rw [hws] at hraw
  refine BitVec.eq_of_getLsbD_eq fun j hj => ?_
  rw [hraw j hj, and_mask_getLsbD]
  by_cases hlt : j < s.ws.bits
  swap
  · rw [decide_eq_false hlt, Bool.false_and, Bool.false_and]
  have hsrc : (j + d) % s.ws.bits < s.ws.bits := Nat.mod_lt _ s.ws.bits_pos
  have hback : t.result.getLsbD ((j + d) % s.ws.bits) = v.getLsbD j := by
    rw [hresult _ (hsrc.trans_le s.ws.bits_le), if_pos hsrc]
    exact congrArg v.getLsbD (add_mod_add_mod_self hde hlt)
  exact congrArg _ hback

/-- Settles O36: the displacements of the two rotates by the same amount make up the word size. -/
theorem rotatesAreInverse : Obligations.RotatesAreInverse := by
  intro v n s
  have hlt : n.toNat % s.ws.bits < s.ws.bits := Nat.mod_lt _ s.ws.bits_pos
  constructor
  · obtain ⟨t, hrol, ht⟩ := exec_rol_rotates v n s
    obtain ⟨u, hror, hu⟩ := exec_ror_rotates t.result n t
    exact ⟨t, u, hrol, hror, ht.raw_of_back hu (by rw [ht.ws_eq]; omega)⟩
  · obtain ⟨t, hror, ht⟩ := exec_ror_rotates v n s
    obtain ⟨u, hrol, hu⟩ := exec_rol_rotates t.result n t
    exact ⟨t, u, hror, hrol, ht.raw_of_back hu (by rw [ht.ws_eq]; omega)⟩

/-- Moving the places of a range around it cyclically leaves a count over it as it was. -/
theorem countP_range_add_mod (f : Nat → Bool) (w d : Nat) :
    (List.range w).countP (fun j => f ((j + d) % w)) = (List.range w).countP f := by
  have hrotate : (List.range w).map (fun j => (j + d) % w) = (List.range w).rotate d :=
    List.ext_getElem (by simp) fun j _ _ => by simp [List.getElem_rotate]
  calc (List.range w).countP (fun j => f ((j + d) % w))
      = ((List.range w).map fun j => (j + d) % w).countP f := List.countP_map.symm
    _ = (List.range w).countP f := by rw [hrotate, (List.rotate_perm _ d).countP_eq]

/-- Bits that are clear from `w` up add nothing to a count. -/
theorem countP_range_of_le {w m : Nat} (h : w ≤ m) (f : Nat → Bool) :
    (List.range m).countP (fun j => decide (j < w) && f j) = (List.range w).countP f := by
  obtain ⟨k, rfl⟩ := Nat.exists_eq_add_of_le h
  have hhigh : ((List.range k).map (w + ·)).countP (fun j => decide (j < w) && f j) = 0 := by
    simp [List.countP_eq_zero]
  rw [List.range_add, List.countP_append, hhigh, Nat.add_zero]
  exact List.countP_congr fun j hj => by simp [List.mem_range.1 hj]

theorem Rotates.countP_raw {s t : State} {v : Word} {d : Nat} (h : Rotates s t v d) :
    (List.range 64).countP (fun j => t.raw.getLsbD j) = (List.range s.ws.bits).countP fun j => v.getLsbD j := by
  obtain ⟨hraw, -⟩ := h
  calc (List.range 64).countP (fun j => t.raw.getLsbD j)
      = (List.range 64).countP fun j => decide (j < s.ws.bits) && v.getLsbD ((j + d) % s.ws.bits) :=
        List.countP_congr fun j hj => by rw [hraw j (List.mem_range.1 hj)]
    _ = (List.range s.ws.bits).countP fun j => v.getLsbD ((j + d) % s.ws.bits) := countP_range_of_le s.ws.bits_le _
    _ = (List.range s.ws.bits).countP fun j => v.getLsbD j := countP_range_add_mod (v.getLsbD ·) _ d

/-- Settles O38: both rotates move the bits of the word around, and the bits from `w` up are clear. -/
theorem rotatesKeepTheNumberOfSetBits : Obligations.RotatesKeepTheNumberOfSetBits := by
  intro v n s
  obtain ⟨t, hrol, ht⟩ := exec_rol_rotates v n s
  obtain ⟨u, hror, hu⟩ := exec_ror_rotates v n s
  exact ⟨⟨t, hrol, ht.countP_raw⟩, ⟨u, hror, hu.countP_raw⟩⟩

end Sys2Proof.Machine
end

section
/-! The laws that identify two commands (spec/42_shift_rotate.md R64, R69): their rules load the same pattern. -/

namespace Sys2Proof.Machine

/-- Two commands that load the same pattern answer alike, unless one is of the two whose response is not the signed
register alone. -/
theorem exec_eq_of_loads {i j : Instr} {s : State} {p q : Word} (hi : ruleOf i s = .done (setRawField s p))
    (hj : ruleOf j s = .done (setRawField s q)) (hpq : p = q) (higet : i ≠ .getRaw) (hidisplay : i ≠ .display)
    (hjget : j ≠ .getRaw) (hjdisplay : j ≠ .display) : exec i s = exec j s := by
  rw [exec_of_done hi, exec_of_done hj, resultOf_of_ne_getRaw higet, resultOf_of_ne_getRaw hjget,
    textOf_of_ne_display hidisplay, textOf_of_ne_display hjdisplay, hpq]

/-- An amount below `w` is its own effective amount (R64). -/
theorem shiftAmount_ofNat {ws : WordSize} {k : Nat} (hk : k < ws.bits) : shiftAmount ws (BitVec.ofNat 64 k) = k := by
  have hle := ws.bits_le
  rw [shiftAmount, u64, BitVec.toNat_ofNat, Nat.mod_eq_of_lt (by omega : k < 2 ^ 64), Nat.mod_eq_of_lt hk]

/-- The effective amount does not see the word size added, even where the 64-bit sum wraps around (R64). -/
theorem shiftAmount_add_bits (ws : WordSize) (n : Word) :
    shiftAmount ws (n + BitVec.ofNat 64 ws.bits) = shiftAmount ws n := by
  rw [shiftAmount, shiftAmount, u64, u64, BitVec.toNat_add, BitVec.toNat_ofNat, Nat.add_mod_mod,
    Nat.mod_mod_of_dvd _ ws.bits_dvd, Nat.add_mod_right]

/-- Settles O37: the two rotations are one pattern, and only the effective amount counts. -/
theorem rotateAmountsWrapAround : Obligations.RotateAmountsWrapAround := by
  intro v n s
  refine ⟨fun k h0 hk => exec_eq_of_loads rfl rfl ?_ nofun nofun nofun nofun,
    exec_eq_of_loads rfl rfl ?_ nofun nofun nofun nofun, exec_eq_of_loads rfl rfl ?_ nofun nofun nofun nofun⟩
  · rw [shiftAmount_ofNat hk, shiftAmount_ofNat (by omega), rolPattern_eq_rorPattern h0.ne' hk]
  · rw [shiftAmount_add_bits]
  · rw [shiftAmount_add_bits]

/-- A shift to the left is the exact product by the power of two, reduced to the word (R69). -/
theorem shlPattern_eq_pat_mul (ws : WordSize) (v : Word) (k : Nat) :
    shlPattern ws (shiftValue ws v) k = pat ws (s64 v * s64 (BitVec.ofNat 64 (2 ^ k))) := by
  have hmul : v * BitVec.ofNat 64 (2 ^ k) = v <<< k :=
    BitVec.eq_of_toNat_eq (by simp [Nat.shiftLeft_eq])
  rw [shlPattern_shiftValue, pat_eq_and_mask, s64, s64, BitVec.ofInt_mul, BitVec.ofInt_toInt, BitVec.ofInt_toInt, hmul]

/-- A shift to the right is the floor quotient of the unsigned word (R69). -/
theorem toNat_shrPattern (ws : WordSize) (v : Word) (k : Nat) :
    (shrPattern (shiftValue ws v) k).toNat = v.toNat % 2 ^ ws.bits / 2 ^ k := by
  rw [shrPattern, BitVec.toNat_ushiftRight, shiftValue, toNat_and_mask, Nat.shiftRight_eq_div_pow]

/-- Settles O39: `shl` loads what `multiply` stores, and `shr` the quotient. -/
theorem shiftsAreMultiplicationAndDivision : Obligations.ShiftsAreMultiplicationAndDivision := fun v n s =>
  ⟨exec_eq_of_loads rfl rfl (shlPattern_eq_pat_mul s.ws v (shiftAmount s.ws n)) nofun nofun nofun nofun, _,
    exec_of_done rfl, toNat_shrPattern s.ws v (shiftAmount s.ws n)⟩

end Sys2Proof.Machine
end

section
/-! The statements on the elementary math commands (spec/43_elementary_math.md R70, R71). -/

namespace Sys2Proof.Machine

/-- A command that does not read bus B decodes to its instruction whatever B holds (30_encoding.md R44). -/
theorem decode_encode_with_b {i : Instr} (h : (encode i).IgnoresB) (b : Word) :
    decode { encode i with b := b } = .instr i :=
  (decode_eq_instr_with_b h b i).2 (decode_encode i)

/-- The two bounds that fix the floor root, over the integers (R11, R70). -/
theorem isqrtFloor_sq_bounds {x : Int} (hx : 0 ≤ x) :
    (isqrtFloor x.toNat : Int) ^ 2 ≤ x ∧ x < ((isqrtFloor x.toNat : Int) + 1) ^ 2 := by
  obtain ⟨n, rfl⟩ := Int.eq_ofNat_of_zero_le hx
  obtain ⟨hle, hlt⟩ := isqrtFloor_bounds n
  rw [Int.toNat_natCast, sq, sq]
  exact ⟨mod_cast hle, mod_cast hlt⟩

theorem ruleOf_isqrt_of_neg {a : Word} (ha : a.toInt < 0) (s : State) :
    ruleOf (.isqrt a) s = .raised .invalidOperand :=
  if_pos ha

theorem ruleOf_isqrt_of_nonneg {a : Word} (ha : 0 ≤ a.toInt) (s : State) :
    ruleOf (.isqrt a) s = .done (store s (isqrtFloor a.toInt.toNat)) :=
  if_neg ha.not_gt

/-- Settles O27: a negative operand raises, and any other stores the root that its two bounds fix. -/
theorem isqrtStoresTheExactFloorRoot : Obligations.IsqrtStoresTheExactFloorRoot := by
  intro a b s
  refine ⟨decode_encode_with_b (i := .isqrt a) (.inr le_rfl) b, fun ha => ?_, fun ha => ?_⟩
  · exact exec_fails (k := .invalidOperand) (ruleOf_isqrt_of_neg ha s)
  · obtain ⟨t, hexec, hstores⟩ := exec_stores (ruleOf_isqrt_of_nonneg ha s) nofun nofun
    obtain ⟨hle, hlt⟩ := isqrtFloor_sq_bounds ha
    exact ⟨t, _, hexec, hle, hlt, hstores⟩

/-- Only 1 and -1 divide 1, so only their reciprocals are integers (R71). -/
theorem trem_one_eq_zero_iff (x : Int) : trem 1 x = 0 ↔ x = 1 ∨ x = -1 := by
  rw [trem_eq, ← Int.dvd_iff_tmod_eq_zero, ← isUnit_iff_dvd_one, Int.isUnit_iff]

/-- 1 and -1 are their own reciprocals (R71). -/
theorem tdiv_one_self {x : Int} (hx : x = 1 ∨ x = -1) : tdiv 1 x = x := by
  obtain rfl | rfl := hx <;> rfl

/-- The rule of `reciprocal`, by the value of its operand (R71). -/
theorem ruleOf_reciprocal (a : Word) (s : State) :
    ruleOf (.reciprocal a) s =
      if a.toInt = 0 then .raised .divisionByZero
      else if a.toInt = 1 ∨ a.toInt = -1 then .done (store s a.toInt) else .raised .notRepresentable := by
  simp only [ruleOf, reciprocalRule, s64, ne_eq, trem_one_eq_zero_iff, ite_not]
  refine if_congr Iff.rfl rfl (ite_congr rfl (fun hunit => ?_) fun _ => rfl)
  rw [tdiv_one_self hunit]

/-- Settles O28: zero raises first, then every operand but 1 and -1, which are stored as they are. -/
theorem reciprocalIsExactOrFails : Obligations.ReciprocalIsExactOrFails := by
  intro a b s
  have hrule := ruleOf_reciprocal a s
  refine ⟨decode_encode_with_b (i := .reciprocal a) (.inr (Nat.le_succ 0x0E)) b, fun h0 => ?_, fun h0 h1 hneg => ?_, fun hunit => ?_⟩
  · exact exec_fails (k := .divisionByZero) (hrule.trans (if_pos h0))
  · exact exec_fails (k := .notRepresentable)
      (hrule.trans ((if_neg h0).trans (if_neg (not_or.2 ⟨h1, hneg⟩))))
  · have h0 : a.toInt ≠ 0 := by omega
    exact exec_stores (hrule.trans ((if_neg h0).trans (if_pos hunit))) nofun nofun

end Sys2Proof.Machine
end

section
/-! SUPPORT. What the configuration, load and read commands decode from, leave in the register and answer with
(spec/44_configuration.md R72 to R77). -/

namespace Sys2Proof.Machine

/-- A command that does not read bus A does not read bus B either (30_encoding.md R44). -/
theorem ignoresB_of_ignoresA {c : Command} (h : c.IgnoresA) : c.IgnoresB := by
  obtain h10 | h11 | hge := h
  · exact .inr (h10 ▸ by decide)
  · exact .inr (h11 ▸ by decide)
  · exact .inr (by omega)

/-- A command that reads no bus decodes to its instruction whatever the two hold (R44). -/
theorem decode_encode_with_a_b {i : Instr} (h : (encode i).IgnoresA) (a b : Word) :
    decode { encode i with a := a, b := b } = .instr i :=
  (decode_eq_instr_with_a (c := { encode i with b := b }) h a i).2 (decode_encode_with_b (ignoresB_of_ignoresA h) b)

theorem decode_setBase (r : Base) (a b : Word) :
    decode { encode (.setBase r) with a := a, b := b } = .instr (.setBase r) :=
  decode_encode_with_a_b (i := .setBase r) (.inl (extractOpc_cmdWord ..)) a b

theorem decode_setWordSize (w : WordSize) (a b : Word) :
    decode { encode (.setWordSize w) with a := a, b := b } = .instr (.setWordSize w) :=
  decode_encode_with_a_b (i := .setWordSize w) (.inr (.inl (extractOpc_cmdWord ..))) a b

/-- What R12 says of a store fixes the pattern in the register. -/
theorem Stores.raw_eq {s t : State} {r : Int} (h : Stores s t r) : t.raw = pat s.ws r := by
  obtain ⟨hraw, -⟩ := h
  refine BitVec.eq_of_toNat_eq ?_
  rw [toNat_pat, ← hraw, Int.toNat_natCast]

/-- The state that the rule of `setWordSize` leaves (R73). -/
def atWordSize (s : State) (w : WordSize) : State := setRawField (setWsField s w) (s.raw &&& mask w)

theorem ruleOf_setWordSize (w : WordSize) (s : State) : ruleOf (.setWordSize w) s = .done (atWordSize s w) := rfl

/-- Reading the narrowed register masks it a second time, with no further effect. -/
theorem maskedRaw_atWordSize (s : State) (w : WordSize) : maskedRaw (atWordSize s w) = s.raw &&& mask w :=
  and_mask_and_mask w s.raw

theorem toInt_signedResult_atWordSize (s : State) (w : WordSize) :
    (signedResult (atWordSize s w)).toInt = (s.raw.toNat : Int).bmod (2 ^ w.bits) := by
  have hsigned : signedResult (atWordSize s w) = sext64 w (s.raw &&& mask w) :=
    congrArg (sext64 w) (maskedRaw_atWordSize s w)
  rw [hsigned, toInt_sext64]

/-- A wider mask adds nothing to a narrower one (R78). -/
theorem and_mask_and_mask_of_le {w w' : WordSize} (h : w.bits ≤ w'.bits) (p : Word) :
    (p &&& mask w) &&& mask w' = p &&& mask w :=
  and_mask_of_lt ((toNat_and_mask_lt w p).trans_le (Nat.pow_le_pow_right two_pos h))

/-- The two readings of the register are one pattern unless there is a sign bit to extend and room above it (R77). -/
theorem unsignedResult_eq_signedResult_iff (s : State) :
    unsignedResult s = signedResult s ↔ s.raw.getLsbD (s.ws.bits - 1) = false ∨ s.ws.bits = 64 := by
  have hunsigned (j : Nat) : (unsignedResult s).getLsbD j = (decide (j < s.ws.bits) && s.raw.getLsbD j) :=
    and_mask_getLsbD s.ws s.raw j
  have hle := s.ws.bits_le
  constructor
  · intro h
    by_cases hw : s.ws.bits = 64
    · exact .inr hw
    · have htop : (unsignedResult s).getLsbD 63 = (signedResult s).getLsbD 63 := by rw [h]
      have habove : ¬ 63 < s.ws.bits := by omega
      rw [hunsigned, decide_eq_false habove, Bool.false_and, signedResult_getLsbD s (by decide), if_neg habove] at htop
      exact .inl htop.symm
  · intro h
    refine BitVec.eq_of_getLsbD_eq fun j hj => ?_
    rw [hunsigned, signedResult_getLsbD s hj]
    by_cases hlt : j < s.ws.bits
    · rw [decide_eq_true hlt, Bool.true_and, if_pos hlt]
    · have hsign : s.raw.getLsbD (s.ws.bits - 1) = false := h.resolve_right (by omega)
      rw [decide_eq_false hlt, Bool.false_and, if_neg hlt, hsign]

end Sys2Proof.Machine
end

section
/-! The statements on the configuration, load and read commands (spec/44_configuration.md R72 to R78). -/

namespace Sys2Proof.Machine

/-- Settles O31: storing the signed reading of a pattern is masking the pattern. -/
theorem setValueLoadsTheSignedOperand : Obligations.SetValueLoadsTheSignedOperand := by
  intro a b s
  obtain ⟨t, hexec, hstores⟩ : ∃ t, exec (.setValue a) s = .next t ∧ Stores s t a.toInt := exec_stores rfl nofun nofun
  exact ⟨decode_encode_with_b (i := .setValue a) (.inr (Nat.le_of_ble_eq_true rfl)) b, t, hexec, hstores,
    hstores.raw_eq.trans (pat_toInt s.ws a)⟩

/-- Settles O32: both readings of a pattern are stored as the masked pattern. -/
theorem setRawLoadsTheUnsignedOperand : Obligations.SetRawLoadsTheUnsignedOperand := by
  intro a b s
  obtain ⟨t, hexec, hstores⟩ : ∃ t, exec (.setRaw a) s = .next t ∧ Stores s t (a.toNat : Int) :=
    exec_stores rfl nofun nofun
  have hsame : pat s.ws (u64 a) = pat s.ws (s64 a) := (pat_toNat s.ws a).trans (pat_toInt s.ws a).symm
  exact ⟨decode_encode_with_b (i := .setRaw a) (.inr (Nat.le_of_ble_eq_true rfl)) b,
    ⟨t, hexec, hstores, hstores.raw_eq.trans (pat_toNat s.ws a)⟩,
    exec_eq_of_loads rfl rfl hsame nofun nofun nofun nofun⟩

/-- Settles O34: the response holds the masked pattern, and `getValue` the sign-extended one. -/
theorem getRawReadsTheUnsignedPattern : Obligations.GetRawReadsTheUnsignedPattern := by
  intro a b s
  have hdecode : decode { encode .getRaw with a := a, b := b } = .instr .getRaw :=
    decode_encode_with_a_b (.inr (.inr (by decide))) a b
  have hvalue : ∀ u, exec .getValue s = .next u →
      (unsignedResult s = u.result ↔ s.raw.getLsbD (s.ws.bits - 1) = false ∨ s.ws.bits = 64) := by
    intro u hu
    cases hu
    exact unsignedResult_eq_signedResult_iff s
  exact ⟨hdecode, _, exec_of_done rfl, rfl, ⟨rfl, rfl⟩, toNat_resultOf_getRaw s, and_mask_of_masked, hvalue,
    statusO_respond_ok .., noText_respond_nil .., rfl, rfl⟩

/-- Settles O40: the reads see the masked pattern, a wider mask adds nothing, and the response of the first of two
commands is overwritten by the second. -/
theorem wordSizeChangesCompose : Obligations.WordSizeChangesCompose := by
  intro s w
  refine ⟨?_, fun w' hle => ?_, fun r => ?_⟩
  · exact ⟨_, _, _, exec_of_done (ruleOf_setWordSize w s), exec_of_done rfl, maskedRaw_atWordSize s w, exec_of_done rfl,
      toInt_signedResult_atWordSize s w⟩
  · exact ⟨_, _, exec_of_done (ruleOf_setWordSize w s), exec_of_done (ruleOf_setWordSize w' _),
      and_mask_and_mask_of_le hle s.raw⟩
  · exact ⟨_, _, _, _, exec_of_done (ruleOf_setWordSize w s), exec_of_done rfl, exec_of_done rfl,
      exec_of_done (ruleOf_setWordSize w _), rfl⟩

/-- Settles O29: the rule writes the radix, and the response reads the register. -/
theorem setBaseChangesOnlyTheRadix : Obligations.SetBaseChangesOnlyTheRadix :=
  ⟨fun a b => ⟨decode_setBase .dec a b, decode_setBase .bin a b, decode_setBase .oct a b, decode_setBase .hex a b⟩,
    fun r s => ⟨_, exec_of_done rfl, rfl, rfl, rfl, toInt_signedResult (setBaseField s r), statusO_respond_ok ..,
      noText_respond_nil .., rfl, rfl⟩⟩

/-- Settles O30: the rule writes the word size and the masked pattern, and the response reads both. -/
theorem setWordSizeRemasksTheRegister : Obligations.SetWordSizeRemasksTheRegister :=
  ⟨fun a b => ⟨decode_setWordSize .byte a b, decode_setWordSize .word a b, decode_setWordSize .dword a b,
      decode_setWordSize .qword a b⟩,
    fun w s => ⟨_, exec_of_done (ruleOf_setWordSize w s), rfl, toNat_and_mask w s.raw, rfl,
      toInt_signedResult_atWordSize s w, statusO_respond_ok .., noText_respond_nil .., rfl, rfl⟩⟩

/-- Settles O33: the rule leaves the state, and the response holds the signed reading of the register. -/
theorem getValueReadsTheSignedValue : Obligations.GetValueReadsTheSignedValue := by
  intro a b s
  have hdecode : decode { encode .getValue with a := a, b := b } = .instr .getValue :=
    decode_encode_with_a_b (.inr (.inr (by decide))) a b
  obtain ⟨hlo, hhi, -⟩ := registerReadingsAreInRange s
  exact ⟨hdecode, _, exec_of_done rfl, rfl, ⟨rfl, rfl⟩, toInt_signedResult s, rfl, hlo, hhi, statusO_respond_ok ..,
    noText_respond_nil .., rfl, rfl⟩

end Sys2Proof.Machine
end

section
/-! The numerals that the rendering writes: nonempty, of digits below the radix, without a leading zero, and worth the
number they were written from; and how long they are (spec/45_rendering.md R79, R80). -/

namespace Sys2Proof.Machine

/-- `ds` is the numeral of `n`, most significant digit first, with no leading zero unless it is the one digit 0. -/
def IsNumeral (radix n : Nat) (ds : List Nat) : Prop :=
  ds ≠ [] ∧ (∀ d ∈ ds, d < radix) ∧ (ds.head? = some 0 → ds = [0]) ∧
    ds.foldl (fun acc d => acc * radix + d) 0 = n

theorem isNumeral_zero {radix : Nat} (hr : 1 < radix) : IsNumeral radix 0 [0] :=
  ⟨by simp, by simpa using Nat.zero_lt_of_lt hr, fun _ => rfl, by simp⟩

/-- The top digit of a nonzero number is not 0. -/
theorem isNumeral_reverse_digits {radix n : Nat} (hr : 1 < radix) (hn : n ≠ 0) :
    IsNumeral radix n (Nat.digits radix n).reverse := by
  have hne : Nat.digits radix n ≠ [] := Nat.digits_ne_nil_iff_ne_zero.2 hn
  have htop : (Nat.digits radix n).reverse.head? ≠ some 0 := by
    rw [List.head?_reverse, List.getLast?_eq_some_getLast hne]
    exact fun h => Nat.getLast_digit_ne_zero radix hn (Option.some.inj h)
  exact ⟨List.reverse_ne_nil_iff.2 hne, fun d hd => Nat.digits_lt_base hr (List.mem_reverse.1 hd), (absurd · htop),
    foldl_reverse_digits radix n⟩

/-- The model's digit characters are those of R79's table. -/
theorem digitChar_eq_getD : ∀ d < 16, digitChar d = "0123456789ABCDEF".toList.getD d '?' := by decide

/-- What the rendering writes for a number is its numeral in R79's characters. -/
theorem exists_isNumeral_digits {radix : Nat} (hr : 1 < radix) (hr' : radix ≤ 16) (n : Nat) :
    ∃ ds, digits n radix = ds.map (fun d => "0123456789ABCDEF".toList.getD d '?') ∧ IsNumeral radix n ds := by
  by_cases hn : n = 0
  · exact ⟨[0], by rw [hn]; rfl, hn ▸ isNumeral_zero hr⟩
  · refine ⟨_, (digits_eq hr hn).trans (List.map_congr_left fun d hd => ?_), isNumeral_reverse_digits hr hn⟩
    exact digitChar_eq_getD d ((Nat.digits_lt_base hr (List.mem_reverse.1 hd)).trans_le hr')

theorem digits_injective {radix : Nat} (hr : 1 < radix) (hr' : radix ≤ 16) {m n : Nat}
    (h : digits m radix = digits n radix) : m = n :=
  Option.some.inj ((readNumber_digits hr hr' m).symm.trans (h ▸ readNumber_digits hr hr' n))

theorem length_digits_eq {radix n k : Nat} (hr : 1 < radix) (hle : radix ^ k ≤ n) (hlt : n < radix ^ (k + 1)) :
    (digits n radix).length = k + 1 := by
  have hn : n ≠ 0 := ((Nat.pow_pos (Nat.zero_lt_of_lt hr)).trans_le hle).ne'
  refine (length_digits_le hr k.succ_pos hlt).antisymm ?_
  rw [digits_eq hr hn, List.length_map, List.length_reverse]
  exact (Nat.lt_digits_length_iff hr n).2 hle

/-- A decimal text is the sign, for a negative number, before the numeral of the absolute value (R81). -/
theorem decText_eq (x : Int) : decText x = (if x < 0 then ['-'] else []) ++ digits x.natAbs 10 := by
  unfold decText
  split
  · next hneg => rw [show (-x).toNat = x.natAbs by omega, List.singleton_append]
  · next hpos => rw [show x.toNat = x.natAbs by omega, List.nil_append]

end Sys2Proof.Machine
end

section
/-! `Render()` by radix, and what a text tells of the register (spec/45_rendering.md R80, R86). -/

namespace Sys2Proof.Machine

/-- BIN, OCT or HEX, with its radix (R80). -/
def HasRadix (b : Base) (radix : Nat) : Prop :=
  (b = .bin ∧ radix = 2) ∨ (b = .oct ∧ radix = 8) ∨ (b = .hex ∧ radix = 16)

theorem dec_or_hasRadix (b : Base) : b = .dec ∨ ∃ radix, HasRadix b radix := by
  cases b with
  | dec => exact .inl rfl
  | bin => exact .inr ⟨2, .inl ⟨rfl, rfl⟩⟩
  | oct => exact .inr ⟨8, .inr (.inl ⟨rfl, rfl⟩)⟩
  | hex => exact .inr ⟨16, .inr (.inr ⟨rfl, rfl⟩)⟩

theorem HasRadix.bounds {b : Base} {radix : Nat} (h : HasRadix b radix) : 1 < radix ∧ radix ≤ 16 := by
  obtain ⟨-, rfl⟩ | ⟨-, rfl⟩ | ⟨-, rfl⟩ := h <;> decide

theorem render_of_hasRadix {s : State} {radix : Nat} (h : HasRadix s.base radix) :
    render s = digits (uval s) radix := by
  obtain ⟨hb, rfl⟩ | ⟨hb, rfl⟩ | ⟨hb, rfl⟩ := h <;> simp only [render, hb]

theorem render_of_dec {s : State} (h : s.base = .dec) : render s = decText (sval s) := by
  simp only [render, h]

theorem render_ne_nil (s : State) : render s ≠ [] := by
  obtain hdec | ⟨radix, hradix⟩ := dec_or_hasRadix s.base
  · exact render_of_dec hdec ▸ decText_ne_nil _
  · exact render_of_hasRadix hradix ▸ digits_ne_nil hradix.bounds.1

/-- A DEC text read back is the signed reading of the register. -/
theorem readOperand_render_of_dec {s : State} (h : s.base = .dec) :
    readOperand (render s) = some (signedResult s) := by
  have hlo : -2 ^ 63 ≤ sval s := BitVec.le_toInt (signedResult s)
  have hhi : sval s < 2 ^ 63 := BitVec.toInt_lt
  rw [render_of_dec h, readOperand_decText hlo (by omega)]
  exact congrArg some BitVec.ofInt_toInt

/-- The signed reading determines a masked register (R86). -/
theorem pat_sval_of_masked {s : State} (h : Masked s) : pat s.ws (sval s) = s.raw := by
  have hmod : sval s % 2 ^ s.ws.bits = (s.raw.toNat : Int) % 2 ^ s.ws.bits :=
    Int.emod_eq_emod_iff_emod_sub_eq_zero.2 (sval_emod s)
  calc pat s.ws (sval s)
      = pat s.ws (s.raw.toNat : Int) := BitVec.eq_of_toNat_eq (by rw [toNat_pat, toNat_pat, hmod])
    _ = s.raw &&& mask s.ws := pat_toNat ..
    _ = s.raw := and_mask_of_masked h

end Sys2Proof.Machine
end

section
/-! R83's table as bounds on powers of the radix, and the states whose texts are the longest
(spec/45_rendering.md R83). -/

namespace Sys2Proof.Machine

/-- An entry for BIN, OCT or HEX is the number of digits of 2^w - 1. -/
theorem longestText_of_hasRadix {b : Base} {radix : Nat} (h : HasRadix b radix) (w : WordSize) :
    ∃ k, longestText w b = k + 1 ∧ radix ^ k ≤ 2 ^ w.bits - 1 ∧ 2 ^ w.bits ≤ radix ^ (k + 1) := by
  refine ⟨longestText w b - 1, ?_⟩
  obtain ⟨rfl, rfl⟩ | ⟨rfl, rfl⟩ | ⟨rfl, rfl⟩ := h <;> cases w <;> decide

/-- An entry for DEC is the number of digits of 2^(w-1), and one for the sign. -/
theorem longestText_dec (w : WordSize) :
    ∃ k, longestText w .dec = k + 2 ∧ 10 ^ k ≤ 2 ^ (w.bits - 1) ∧ 2 ^ (w.bits - 1) < 10 ^ (k + 1) := by
  refine ⟨longestText w .dec - 2, ?_⟩
  cases w <;> decide

theorem natAbs_sval_le (s : State) : (sval s).natAbs ≤ 2 ^ (s.ws.bits - 1) := by
  obtain ⟨hlo, hhi, -⟩ := registerReadingsAreInRange s
  zify
  exact abs_le.2 ⟨hlo, hhi.le⟩

theorem length_render_le (s : State) : (render s).length ≤ longestText s.ws s.base := by
  obtain hdec | ⟨radix, hradix⟩ := dec_or_hasRadix s.base
  · obtain ⟨k, hlen, -, hlt⟩ := longestText_dec s.ws
    have hdigits : (digits (sval s).natAbs 10).length ≤ k + 1 :=
      length_digits_le (by decide) k.succ_pos ((natAbs_sval_le s).trans_lt hlt)
    rw [render_of_dec hdec, hdec, hlen, decText_eq, List.length_append]
    split
    · exact (Nat.add_comm _ _).trans_le (Nat.succ_le_succ hdigits)
    · rw [List.length_nil, Nat.zero_add]
      exact hdigits.trans (Nat.le_succ _)
  · obtain ⟨k, hlen, -, hle⟩ := longestText_of_hasRadix hradix s.ws
    rw [render_of_hasRadix hradix, hlen]
    exact length_digits_le hradix.bounds.1 k.succ_pos ((uval_lt s).trans_le hle)

/-- The state after reset with both modes set and an integer stored. -/
def storedAt (w : WordSize) (b : Base) (r : Int) : State :=
  store (setBaseField (setWsField State.reset w) b) r

theorem masked_storedAt (w : WordSize) (b : Base) (r : Int) : Masked (storedAt w b r) := pat_masked w r

theorem sval_storedAt (w : WordSize) (b : Base) (r : Int) : sval (storedAt w b r) = r.bmod (2 ^ w.bits) :=
  (congrArg (fun p => (sext64 w p).toInt) (pat_and_mask w r)).trans (toInt_sext64_pat w r)

theorem uval_storedAt (w : WordSize) (b : Base) (r : Int) : uval (storedAt w b r) = (r % 2 ^ w.bits).toNat :=
  (uval_of_masked (masked_storedAt w b r)).trans (toNat_pat w r)

theorem sval_storedAt_min (w : WordSize) (b : Base) : sval (storedAt w b (-2 ^ (w.bits - 1))) = -2 ^ (w.bits - 1) := by
  rw [sval_storedAt]
  cases w <;> decide

theorem uval_storedAt_neg_one (w : WordSize) (b : Base) : uval (storedAt w b (-1)) = 2 ^ w.bits - 1 := by
  rw [uval_storedAt]
  cases w <;> decide

theorem length_render_storedAt_min (w : WordSize) :
    (render (storedAt w .dec (-2 ^ (w.bits - 1)))).length = longestText w .dec := by
  obtain ⟨k, hlen, hle, hlt⟩ := longestText_dec w
  have hneg : -(2 : Int) ^ (w.bits - 1) < 0 := by simp
  have habs : (-(2 : Int) ^ (w.bits - 1)).natAbs = 2 ^ (w.bits - 1) := by simp [Int.natAbs_pow]
  rw [render_of_dec rfl, sval_storedAt_min, decText_eq, if_pos hneg, habs, List.length_append,
    length_digits_eq (by decide) hle hlt, hlen]
  exact Nat.add_comm ..

theorem length_render_storedAt_neg_one {b : Base} {radix : Nat} (h : HasRadix b radix) (w : WordSize) :
    (render (storedAt w b (-1))).length = longestText w b := by
  obtain ⟨k, hlen, hle, hlt⟩ := longestText_of_hasRadix h w
  rw [render_of_hasRadix (s := storedAt w b (-1)) h, uval_storedAt_neg_one, hlen]
  exact length_digits_eq h.bounds.1 hle ((Nat.sub_lt (Nat.two_pow_pos _) one_pos).trans_le hlt)

end Sys2Proof.Machine
end

section
/-! The statements on the rendering and on `display` (spec/45_rendering.md R81 to R86). -/

namespace Sys2Proof.Machine

/-- Settles O53: the text is the numeral of the unsigned reading. -/
theorem radixTextIsThePositionalNumeral : Obligations.RadixTextIsThePositionalNumeral := by
  intro s radix h
  have hradix : HasRadix s.base radix := h
  rw [render_of_hasRadix hradix, ← uval_eq]
  exact exists_isNumeral_digits hradix.bounds.1 hradix.bounds.2 (uval s)

/-- Settles O54: the text is the sign and the numeral of the signed reading's absolute value. -/
theorem decimalTextIsTheSignedNumeral : Obligations.DecimalTextIsTheSignedNumeral := by
  intro s hdec
  obtain ⟨ds, hds, hnumeral⟩ := exists_isNumeral_digits (radix := 10) (by decide) (by decide) (sval s).natAbs
  rw [render_of_dec hdec, decText_eq, hds, ← sval_eq]
  exact ⟨ds, rfl, hnumeral⟩

/-- Settles O55: no reading has more digits than the extreme one of its word, and the extreme ones reach the table. -/
theorem textLengthsAreThoseOfTheTable : Obligations.TextLengthsAreThoseOfTheTable := by
  refine ⟨fun s => ⟨List.length_pos_iff.2 (render_ne_nil s), length_render_le s, (presentable_render s).1⟩,
    fun w b => ?_⟩
  obtain rfl | ⟨radix, hradix⟩ := dec_or_hasRadix b
  · exact ⟨storedAt w .dec (-2 ^ (w.bits - 1)), rfl, rfl, masked_storedAt .., length_render_storedAt_min w⟩
  · exact ⟨storedAt w b (-1), rfl, rfl, masked_storedAt .., length_render_storedAt_neg_one hradix w⟩

/-- Settles O56: a text is read back as the signed or the unsigned reading, and each determines a masked register. -/
theorem renderingIsInjective : Obligations.RenderingIsInjective := by
  intro s t hs ht hws hbase hrender
  obtain hdec | ⟨radix, hradix⟩ := dec_or_hasRadix s.base
  · have hsigned : some (signedResult s) = some (signedResult t) := by
      rw [← readOperand_render_of_dec hdec, hrender, readOperand_render_of_dec (hbase ▸ hdec)]
    have hsval : sval s = sval t := congrArg s64 (Option.some.inj hsigned)
    rw [← pat_sval_of_masked hs, ← pat_sval_of_masked ht, hsval, hws]
  · rw [render_of_hasRadix hradix, render_of_hasRadix (hbase ▸ hradix)] at hrender
    have huval : uval s = uval t := digits_injective hradix.bounds.1 hradix.bounds.2 hrender
    exact BitVec.eq_of_toNat_eq (by rw [← uval_of_masked hs, ← uval_of_masked ht, huval])

/-- Settles O35: the rule leaves the state, and the response holds the text of that state. -/
theorem displayPresentsTheText : Obligations.DisplayPresentsTheText := by
  intro a b s
  have hdecode : decode { encode .display with a := a, b := b } = .instr .display :=
    decode_encode_with_a_b (.inr (.inr (by decide))) a b
  have htext : Presentable (render s) := presentable_render s
  have hlen : (respond s .ok (signedResult s) (render s)).textLen.toNat = (render s).length :=
    toNat_respond_textLen _ _ _ htext.1
  obtain ⟨hle, hpadded⟩ := textPadded_respond s .ok (signedResult s) htext
  exact ⟨hdecode, _, exec_of_done rfl, rfl, ⟨rfl, rfl⟩, toInt_signedResult s, statusO_respond_ok .., ⟨rfl, rfl⟩, hlen,
    hlen ▸ List.length_pos_iff.2 (render_ne_nil s), hle, fun i c hc => toNat_textPort_render hc, hpadded,
    textDisplayable_respond s .ok _ htext⟩

end Sys2Proof.Machine
end

section
/-! SUPPORT. The STATUS that each command ends with: a rule that completes answers 0, one that raises answers the code
of its error, and an illegal word answers 4 (spec/60_exceptions.md R87, R88, R91, R92). -/

namespace Sys2Proof.Machine

theorem fails_respond_error (s : State) (k : ErrorKind) : Fails s (respond s (.error k) 0 []) (errorCode k) :=
  ⟨rfl, ⟨rfl, rfl⟩, rfl, rfl, noText_respond_nil .., ⟨rfl, rfl⟩⟩

theorem fails_answerIllegal (s : State) : Fails s (answerIllegal s) 4 :=
  fails_respond_error s .illegalCommand

theorem step_illegal {s : State} {c : Command} {rest : List HostInput} (hinputs : s.inputs = .command c :: rest)
    (hr : s.resetSeen = true) (hl : c.legal = false) : step s = .next (answerIllegal { s with inputs := rest }) := by
  obtain ⟨why, hd⟩ := (illegal_iff_decode_reserved c).1 hl
  exact step_reserved hinputs hr hd

/-- The STATUS code with which a rule's end is answered (R87). -/
def RuleResult.code (r : RuleResult) : BitVec 3 :=
  match r with
  | .done _ => 0
  | .raised k => errorCode k

theorem exec_statusO (i : Instr) (s : State) : ∃ t, exec i s = .next t ∧ statusO t = (ruleOf i s).code := by
  cases h : ruleOf i s with
  | done u => exact ⟨_, exec_of_done h, statusO_respond_ok ..⟩
  | raised k => exact ⟨_, exec_of_raised h, rfl⟩

/-- A response with a STATUS other than 0 is that of a raise, which keeps the state before the command (R90). -/
theorem fails_of_exec {i : Instr} {s t : State} (h : exec i s = .next t) (ht : statusO t ≠ 0) :
    Fails s t (statusO t) := by
  obtain ⟨u, -, rfl⟩ | ⟨k, -, rfl⟩ := exec_cases h
  · exact absurd (statusO_respond_ok ..) ht
  · exact fails_respond_error s k

/-- The STATUS of a legal command, read off its word and its buses (R88, R92). -/
def legalStatus (c : Command) : BitVec 3 :=
  if (c.cmd = 0x04 ∨ c.cmd = 0x05) ∧ c.b = 0 then 1
  else if c.cmd = 0x0E ∧ c.a.toInt < 0 then 2
  else if c.cmd = 0x0F ∧ c.a.toInt = 0 then 1
  else if c.cmd = 0x0F ∧ c.a.toInt ≠ 1 ∧ c.a.toInt ≠ -1 then 3
  else 0

theorem legalStatus_divide (a b : Word) : legalStatus (encode (.divide a b)) = if b = 0 then 1 else 0 := by
  simp [legalStatus, encode, cmdWord]

theorem legalStatus_mod (a b : Word) : legalStatus (encode (.mod a b)) = if b = 0 then 1 else 0 := by
  simp [legalStatus, encode, cmdWord]

theorem legalStatus_isqrt (a : Word) : legalStatus (encode (.isqrt a)) = if a.toInt < 0 then 2 else 0 := by
  simp [legalStatus, encode, cmdWord]

theorem legalStatus_reciprocal (a : Word) :
    legalStatus (encode (.reciprocal a)) =
      if a.toInt = 0 then 1 else if a.toInt ≠ 1 ∧ a.toInt ≠ -1 then 3 else 0 := by
  simp [legalStatus, encode, cmdWord]

/-- Four rules can raise; the other eighteen complete in every state (R88). -/
theorem code_ruleOf (i : Instr) (s : State) : (ruleOf i s).code = legalStatus (encode i) := by
  cases i with
  | divide a b => rw [ruleOf_divide, legalStatus_divide]; split <;> rfl
  | mod a b => rw [ruleOf_mod, legalStatus_mod]; split <;> rfl
  | isqrt a =>
    rw [legalStatus_isqrt]
    split
    · next ha => rw [ruleOf_isqrt_of_neg ha]; rfl
    · next ha => rw [ruleOf_isqrt_of_nonneg (not_lt.1 ha)]; rfl
  | reciprocal a =>
    rw [ruleOf_reciprocal, legalStatus_reciprocal]
    split
    · rfl
    · simp only [ne_eq, ← not_or, ite_not]
      split <;> rfl
  | setBase r => cases r <;> rfl
  | setWordSize w => cases w <;> rfl
  | _ => rfl

/-- The STATUS reads a bus only where the command does, so it is that of the encoding (30_encoding.md R44). -/
theorem legalStatus_eq_of_decode {c : Command} {i : Instr} (h : decode c = .instr i) :
    legalStatus c = legalStatus (encode i) := by
  obtain ⟨hcmd, ha, hb⟩ := decode_eq_instr_iff.1 h
  have hreadsA (hw : c.cmd = 0x0E ∨ c.cmd = 0x0F) : (encode i).a = c.a := by
    refine ha.resolve_left ?_
    obtain hw | hw := hw <;> simp [Command.IgnoresA, Command.opc, hw]
  have hreadsB (hw : c.cmd = 0x04 ∨ c.cmd = 0x05) : (encode i).b = c.b := by
    refine hb.resolve_left ?_
    obtain hw | hw := hw <;> simp [Command.IgnoresB, Command.opc, hw]
  have hdivisor := and_congr_right fun hw => iff_of_eq (congrArg (· = 0) (hreadsB hw))
  have hsign := and_congr_right fun hw => iff_of_eq (congrArg (BitVec.toInt · < 0) (hreadsA (.inl hw)))
  have hzero := and_congr_right fun hw => iff_of_eq (congrArg (BitVec.toInt · = 0) (hreadsA (.inr hw)))
  have hunit := and_congr_right fun hw =>
    iff_of_eq (congrArg (fun p => p.toInt ≠ 1 ∧ p.toInt ≠ -1) (hreadsA (.inr hw)))
  simp only [legalStatus, hcmd, hdivisor, hsign, hzero, hunit]

end Sys2Proof.Machine
end

section
/-! The statements on the STATUS of a response and on what a failed command leaves (spec/60_exceptions.md R87 to
R92). -/

namespace Sys2Proof.Machine

/-- Settles O7: an illegal word has a reserved encoding, and the answer to one changes the response alone. -/
theorem illegalWordIsAnswered : Obligations.IllegalWordIsAnswered :=
  fun s _ rest hinputs hr hl => ⟨_, step_illegal hinputs hr hl, fails_answerIllegal { s with inputs := rest }⟩

/-- Settles O41: a step on a command executes its instruction or answers its reserved word, and both fail alike. -/
theorem failedCommandChangesNothing : Obligations.FailedCommandChangesNothing := by
  refine ⟨fun i s t => fails_of_exec, fun s t c rest hinputs h ht => ?_⟩
  obtain ⟨hnil, -⟩ | ⟨r, hx, -⟩ | ⟨d, r, i, hx, -, -, hexec⟩ | ⟨d, r, why, hx, -, -, rfl⟩ := step_cases h
  · cases hinputs.symm.trans hnil
  · cases hinputs.symm.trans hx
  · cases hinputs.symm.trans hx
    exact fails_of_exec hexec ht
  · cases hinputs.symm.trans hx
    exact fails_answerIllegal { s with inputs := rest }

/-- Settles O42: legality decides first, and then the rule of the decoded instruction. -/
theorem statusOfEveryCommand : Obligations.StatusOfEveryCommand := by
  intro s c rest hinputs hr
  cases hd : decode c with
  | reserved why =>
    exact ⟨_, step_reserved hinputs hr hd, (if_pos (illegal_of_decode_eq_reserved hd)).symm⟩
  | instr i =>
    obtain ⟨t, hexec, hstatus⟩ := exec_statusO i { s with inputs := rest }
    have hl : ¬ c.legal = false := by simp [legal_of_decode_eq_instr hd]
    refine ⟨t, (step_instr hinputs hr hd).trans hexec, ?_⟩
    rw [hstatus, code_ruleOf, ← legalStatus_eq_of_decode hd, if_neg hl, legalStatus]

end Sys2Proof.Machine
end

section
/-! The statements on reset and on how every step ends (spec/70_reset_and_hazards.md R98 to R104). -/

namespace Sys2Proof.Machine

/-- Settles O48: the wait, RST, an instruction and the answer to a reserved word all go on, and none of them but RST
writes the reset mark. -/
theorem everyStepCompletes : Obligations.EveryStepCompletes := by
  intro s hr
  rcases hs : s.inputs with _ | ⟨c | _, rest⟩
  · exact ⟨s, step_wait hs, hr, hs⟩
  · cases hd : decode c with
    | instr i =>
      have hexec := exec_eq i { s with inputs := rest }
      obtain ⟨-, -, -, hseen, hinputs⟩ := modesHaveOneWriterEach i _ _ hexec
      exact ⟨_, (step_instr hs hr hd).trans hexec, hseen.trans hr, hinputs⟩
    | reserved why => exact ⟨_, step_reserved hs hr hd, hr, rfl⟩
  · exact ⟨_, step_rst hs, rfl, rfl⟩

/-- A run over what is pending, up to an RST that is presented last, ends in the reset state: each input before it is
taken by one step that goes on. -/
theorem runSteps_of_inputs_append_rst (xs : List HostInput) {s : State} (hr : s.resetSeen = true)
    (hs : s.inputs = xs ++ [.rst]) : runSteps (xs.length + 1) s = .next State.reset := by
  induction xs generalizing s with
  | nil => exact runSteps_succ_of_next (step_rst hs) 0
  | cons x xs ih =>
    obtain ⟨t, hstep, ht, hinputs⟩ := everyStepCompletes s hr
    rw [hs, List.cons_append, List.tail_cons] at hinputs
    exact (runSteps_succ_of_next hstep _).trans (ih ht hinputs)

/-- Settles O52: the state that the inputs lead to has RST alone pending. -/
theorem resetDiscardsTheHistory : Obligations.ResetDiscardsTheHistory :=
  fun xs _ hr => runSteps_of_inputs_append_rst xs hr rfl

/-- Settles O2: the step on RST is assertReset, which leaves the reset values and keeps what is still pending. -/
theorem rstGivesTheResetState : Obligations.RstGivesTheResetState :=
  fun _ _ hs => ⟨_, step_rst hs, rfl, rfl, rfl, rfl, rfl, noText_reset, rfl, rfl⟩

/-- Settles O3: the step looks at the reset mark before it decodes the command. -/
theorem commandBeforeFirstResetIsRefused : Obligations.CommandBeforeFirstResetIsRefused :=
  ⟨rfl, fun _ _ _ => step_unreset⟩

end Sys2Proof.Machine
end
